-- ==== Sys2Proof/Word.lean ====
section
/-! DEFINITION. The words the ports carry (00_scope.md R12: every value is unsigned, bit 0 is the least significant). -/

namespace Sys2Proof

/-- One byte of the stream (30_encoding.md R71), of a frame (10_state.md R26) or of the checksum unit (R28). -/
abbrev Byte := BitVec 8

/-- A host command word (30_encoding.md R72). -/
abbrev Cmd := BitVec 16

/-- The header word `hdr24`, first byte most significant (30_encoding.md R77). -/
abbrev Hdr := BitVec 24

/-- A response or a register of REGS (30_encoding.md R72, 10_state.md R32). -/
abbrev Word := BitVec 32

end Sys2Proof
end

