-- ==== Sys2Proof/Config.lean ====
section
/-! DEFINITION. The constants and parameters of 00_scope.md section 4, and the model's free values. -/

namespace Sys2Proof

/-- `MARKER` (00_scope.md R9): a constant, no parameter. -/
def marker : Byte := 0xCC#8

/-- `HDR_LEN` (00_scope.md R8): marker, type_id, length. -/
def hdrLen : Nat := 3

/-- `TRAILER_LEN` (00_scope.md R8): the rsi byte. -/
def trailerLen : Nat := 1

/-- `FRAME_MAX` (00_scope.md R8): 3 + 255 + 1 bytes. -/
def frameMax : Nat := 259

/-- `BUF_CAP` (10_state.md R23, 41_frame_detector.md R124). -/
def bufCap : Nat := 259

/-- The two parameters of a model (00_scope.md R10, R11). They are fixed for a run: State carries them, and nothing
writes them (10_state.md R42; log entry 1). `knownTypes` is read as a set: only membership counts. -/
structure Config where
  /-- `KNOWN_TYPES`: any set of bytes, the empty one and one that holds 0xCC included (R10). -/
  knownTypes : List Byte
  /-- `OUT_DEPTH`: how many complete frames the output queue holds; legal from 1 (R11, log entry 20). -/
  outDepth : Nat
deriving DecidableEq, Repr

/-- The defaults of 00_scope.md R10 and R11. -/
def Config.default : Config := { knownTypes := [0x81#8, 0x86#8, 0x88#8], outDepth := 1 }

/-- `OUT_DEPTH` is "an integer of at least 1" (00_scope.md R11). -/
abbrev Config.Legal (c : Config) : Prop := 1 ≤ c.outDepth

/-- `PLATFORM_BASE` (20_memory.md R59): OPEN, "unused by every rule of this spec" (log entry 17). -/
opaque Config.platformBase : Nat

/-- FREE VALUE (log entry 10): what OUT_COUNT reads when `n` frames are queued and `n` does not fit in 32 bits.
10_state.md R33 gives `zext_32(|outq|)`, and 00_scope.md R11 gives OUT_DEPTH no upper bound. -/
opaque Config.freeOutCount : Nat → BitVec 32

end Sys2Proof
end

