-- ==== Sys2Proof/Syntax.lean ====
section
/-! DEFINITION. One constructor per row of spec/opcode_table.json, and one for the rows that 30_encoding.md R78 adds under a
KNOWN_TYPES that is not the default (log entry 7). -/

namespace Sys2Proof

/-- The transactions of formats RX8 and CMD16 (30_encoding.md R70) and the header classes of format HDR24 (R78).
Operands are the unsigned fields of 30_encoding.md R80. -/
inductive Instr where
  /-- RX_BYTE d: the link agent's transaction (41_frame_detector.md R120). -/
  | rxByte (d : Byte)
  /-- NOP (42_host_ops.md R151). -/
  | nop
  /-- FRAME_POP (42_host_ops.md R152). -/
  | framePop
  /-- FRAME_READ idx (42_host_ops.md R153). -/
  | frameRead (idx : BitVec 9)
  /-- REG_READ addr (42_host_ops.md R154); legal for addr 0x0..0x5. -/
  | regRead (addr : BitVec 4)
  /-- CKS_CLEAR (40_checksum.md R101). -/
  | cksClear
  /-- CKS_BYTE d (40_checksum.md R102). -/
  | cksByte (d : Byte)
  /-- CLR_ERR (42_host_ops.md R156). -/
  | clrErr
  /-- RESET (42_host_ops.md R157). -/
  | reset
  /-- HDR_LOG: a front `CC 81 length` (30_encoding.md R78, 41_frame_detector.md R125). -/
  | hdrLog (length : Byte)
  /-- HDR_PING_RESP_134: a front `CC 86 length` (30_encoding.md R78, 41_frame_detector.md R125). -/
  | hdrPingResp134 (length : Byte)
  /-- HDR_PING_RESP_136: a front `CC 88 length` (30_encoding.md R78, 41_frame_detector.md R125). -/
  | hdrPingResp136 (length : Byte)
  /-- The row `match = 0xCC0000 or (t << 8)` of a known type `t` other than 0x81, 0x86 and 0x88: a front `CC t length`
  (30_encoding.md R78, 41_frame_detector.md R125; log entry 7). -/
  | hdrKnown (typeId length : Byte)
  /-- HDR_NOISE: any other front, held whole because the row fixes no bit of it (R78, 41_frame_detector.md R126). -/
  | hdrNoise (hdr : Hdr)
deriving DecidableEq, Repr

end Sys2Proof
end

