-- ==== Sys2Proof/WellFormed.lean ====
section
/-! DEFINITION. Which instruction terms the encoding admits, under a set of known types. -/

namespace Sys2Proof

/-- REG_READ is legal for addresses 0x0 to 0x5 (30_encoding.md R84, R86); a recognised class exists only where its
type is in KNOWN_TYPES (`hdrKnown` for the types the table gives no row of their own), and HDR_NOISE is every header that is not recognised (30_encoding.md R78). Every other operand
field is legal at every value its width admits (R71, R73). -/
def Instr.wellFormed (known : List Byte) : Instr → Bool
  | .rxByte _ => true
  | .nop => true
  | .framePop => true
  | .frameRead _ => true
  | .regRead addr => decide (addr.toNat ≤ 5)
  | .cksClear => true
  | .cksByte _ => true
  | .clrErr => true
  | .reset => true
  | .hdrLog _ => known.contains 0x81#8
  | .hdrPingResp134 _ => known.contains 0x86#8
  | .hdrPingResp136 _ => known.contains 0x88#8
  | .hdrKnown typeId _ =>
    known.contains typeId && typeId != 0x81#8 && typeId != 0x86#8 && typeId != 0x88#8
  | .hdrNoise h => !(h.extractLsb' 16 8 == marker && known.contains (h.extractLsb' 8 8))

end Sys2Proof
end

