-- ==== Sys2Proof/Decode.lean ====
section
/-! DEFINITION. The decoder of the three formats, total and rejecting by name, and the encoder, both written from
30_encoding.md (R71 to R81) and its opcode map. -/

namespace Sys2Proof

/-! ### Words and fields -/

/-- An encoded word, by format: which decoder reads a word is fixed by the port it arrives at (30_encoding.md R70), and
HDR24 words are read from the front of the receive buffer (R77). -/
inductive Encoded where
  | rx8 (d : Byte)
  | cmd16 (w : Cmd)
  | hdr24 (h : Hdr)
deriving DecidableEq, Repr

/-- `op = w[15:12]` (30_encoding.md R72). -/
def Cmd.op (w : Cmd) : BitVec 4 := w.extractLsb' 12 4

/-- `idx = arg[8:0]` (30_encoding.md R80). -/
def Cmd.idx (w : Cmd) : BitVec 9 := w.extractLsb' 0 9

/-- `addr = arg[3:0]` (30_encoding.md R80). -/
def Cmd.addr (w : Cmd) : BitVec 4 := w.extractLsb' 0 4

/-- `d = arg[7:0]` (30_encoding.md R80). -/
def Cmd.data (w : Cmd) : Byte := w.extractLsb' 0 8

/-- `hdr24 = {buf[0], buf[1], buf[2]}` (30_encoding.md R77). -/
def Hdr.ofBytes (m t len : Byte) : Hdr := m ++ t ++ len

/-- `hdr24[23:16]` (30_encoding.md R77). -/
def Hdr.marker (h : Hdr) : Byte := h.extractLsb' 16 8

/-- `hdr24[15:8]` (30_encoding.md R77). -/
def Hdr.typeId (h : Hdr) : Byte := h.extractLsb' 8 8

/-- `hdr24[7:0]` (30_encoding.md R77). -/
def Hdr.length (h : Hdr) : Byte := h.extractLsb' 0 8

/-- `recognised(b0, b1)` (00_scope.md R15, 41_frame_detector.md R123). The length byte takes no part. -/
def recognised (known : List Byte) (b0 b1 : Byte) : Bool := b0 == marker && known.contains b1

/-- `frame_size(len) = 3 + len + 1` (00_scope.md R15, R8; 30_encoding.md R79). -/
def frameSize (len : Byte) : Nat := hdrLen + len.toNat + trailerLen

/-! ### The opcode map as rows -/

/-- A row of an opcode map: the word `w` selects it iff `(w and mask) = pattern` (30_encoding.md R74). -/
structure Row (n : Nat) where
  pattern : BitVec n
  mask : BitVec n
deriving DecidableEq, Repr

def Row.selects {n : Nat} (r : Row n) (w : BitVec n) : Bool := w &&& r.mask == r.pattern

/-- The rows of 30_encoding.md R74. -/
def rowNop : Row 16 := ⟨0x0000#16, 0xFFFF#16⟩
def rowFramePop : Row 16 := ⟨0x1000#16, 0xFFFF#16⟩
def rowFrameRead : Row 16 := ⟨0x2000#16, 0xFE00#16⟩
def rowRegRead : Row 16 := ⟨0x3000#16, 0xFFF0#16⟩
def rowCksClear : Row 16 := ⟨0x4000#16, 0xFFFF#16⟩
def rowCksByte : Row 16 := ⟨0x5000#16, 0xFF00#16⟩
def rowClrErr : Row 16 := ⟨0x6000#16, 0xFFFF#16⟩
def rowReset : Row 16 := ⟨0x7000#16, 0xFFFF#16⟩

/-- The whole command map of 30_encoding.md R74, in its order. -/
def commandRows : List (Row 16) :=
  [rowNop, rowFramePop, rowFrameRead, rowRegRead, rowCksClear, rowCksByte, rowClrErr, rowReset]

/-- The row of a recognised type: `match = 0xCC0000 or (t << 8)`, mask 0xFFFF00 (30_encoding.md R78). -/
def headerRow (t : Byte) : Row 24 := ⟨0xCC0000#24 ||| (t.setWidth 24 <<< 8), 0xFFFF00#24⟩

/-! ### The decoder -/

/-- Why a word decodes to no instruction. -/
inductive Reject where
  /-- `w[15:12]` in 0x8..0xF (30_encoding.md R85). -/
  | reservedOpcode (op : BitVec 4)
  /-- A reserved bit of `arg` is set (30_encoding.md R86). -/
  | reservedArgument (w : Cmd)
  /-- REG_READ of an address 0x6..0xF (30_encoding.md R86, 10_state.md R38). -/
  | reservedRegister (addr : BitVec 4)
deriving DecidableEq, Repr

/-- What a word decodes to. -/
inductive Decoded where
  | instr (i : Instr)
  | reject (r : Reject)
deriving DecidableEq, Repr

/-- Every RX value is legal (30_encoding.md R71). -/
def decodeRx (d : Byte) : Instr := .rxByte d

/-- A command word selects at most one row (30_encoding.md R74); a word that selects none, or a REG_READ of a reserved
address, is reserved (R84 to R86). -/
def decodeCmd (w : Cmd) : Decoded :=
  if rowNop.selects w then .instr .nop
  else if rowFramePop.selects w then .instr .framePop
  else if rowFrameRead.selects w then .instr (.frameRead (Cmd.idx w))
  else if rowRegRead.selects w then
    if (Cmd.addr w).toNat ≤ 5 then .instr (.regRead (Cmd.addr w)) else .reject (.reservedRegister (Cmd.addr w))
  else if rowCksClear.selects w then .instr .cksClear
  else if rowCksByte.selects w then .instr (.cksByte (Cmd.data w))
  else if rowClrErr.selects w then .instr .clrErr
  else if rowReset.selects w then .instr .reset
  else if 8 ≤ (Cmd.op w).toNat then .reject (.reservedOpcode (Cmd.op w))
  else .reject (.reservedArgument w)

/-- The class of a header word under KNOWN_TYPES (30_encoding.md R78): one recognised row for every known type, the
three of the table by name (log entry 7), and HDR_NOISE last. No header word is rejected (R82). -/
def decodeHeader (known : List Byte) (h : Hdr) : Decoded :=
  if recognised known (Hdr.marker h) (Hdr.typeId h) then
    if (headerRow 0x81#8).selects h then .instr (.hdrLog (Hdr.length h))
    else if (headerRow 0x86#8).selects h then .instr (.hdrPingResp134 (Hdr.length h))
    else if (headerRow 0x88#8).selects h then .instr (.hdrPingResp136 (Hdr.length h))
    else .instr (.hdrKnown (Hdr.typeId h) (Hdr.length h))
  else .instr (.hdrNoise h)

/-- The decoder of all three formats. -/
def decode (known : List Byte) : Encoded → Decoded
  | .rx8 d => .instr (decodeRx d)
  | .cmd16 w => decodeCmd w
  | .hdr24 h => decodeHeader known h

/-- A command word is legal iff it decodes (30_encoding.md R84). -/
def legalCommand (w : Cmd) : Bool :=
  match decodeCmd w with
  | .instr _ => true
  | .reject _ => false

/-! ### The encoder -/

/-- The word of an instruction (30_encoding.md R71, R73, R77). -/
def encode : Instr → Encoded
  | .rxByte d => .rx8 d
  | .nop => .cmd16 0x0000#16
  | .framePop => .cmd16 0x1000#16
  | .frameRead idx => .cmd16 (0x2#4 ++ 0x0#3 ++ idx)
  | .regRead addr => .cmd16 (0x3#4 ++ 0x00#8 ++ addr)
  | .cksClear => .cmd16 0x4000#16
  | .cksByte d => .cmd16 (0x5#4 ++ 0x0#4 ++ d)
  | .clrErr => .cmd16 0x6000#16
  | .reset => .cmd16 0x7000#16
  | .hdrLog len => .hdr24 (Hdr.ofBytes 0xCC#8 0x81#8 len)
  | .hdrPingResp134 len => .hdr24 (Hdr.ofBytes 0xCC#8 0x86#8 len)
  | .hdrPingResp136 len => .hdr24 (Hdr.ofBytes 0xCC#8 0x88#8 len)
  | .hdrKnown typeId len => .hdr24 (Hdr.ofBytes 0xCC#8 typeId len)
  | .hdrNoise h => .hdr24 h

/-! ### Words as opcode_table.json numbers them -/

/-- The format of a table row by its width: RX8 has 8 bits, CMD16 16, HDR24 24; a wider value is no such word. -/
def encodedOfTableWord (nbits w : Nat) : Option Encoded :=
  if w < 2 ^ nbits then
    match nbits with
    | 8 => some (.rx8 (BitVec.ofNat 8 w))
    | 16 => some (.cmd16 (BitVec.ofNat 16 w))
    | 24 => some (.hdr24 (BitVec.ofNat 24 w))
    | _ => none
  else none

/-- The decoder on a table word, header words under the default KNOWN_TYPES (30_encoding.md R78; log entry 8). -/
def decodeTableWord (nbits w : Nat) : Option Instr :=
  match encodedOfTableWord nbits w with
  | some e =>
    match decode Config.default.knownTypes e with
    | .instr i => some i
    | .reject _ => none
  | none => none

end Sys2Proof
end

