-- ==== Sys2Proof/Machine/State.lean ====
section
/-! DEFINITION. The state of the block (10_state.md), its offered inputs, and the state after reset. -/

namespace Sys2Proof.Machine

/-- A frame is the byte sequence the detector removed from the front of `buf`, in wire order (10_state.md R26). -/
abbrev Frame := List Byte

/-- Who acts next (20_memory.md R61, 60_exceptions.md R190): the link agent, the host agent, or the platform pulsing
`rst`. -/
inductive Turn where
  | link
  | host
  | rst
deriving DecidableEq, Repr

/-- The causes that set ILLEGAL (60_exceptions.md R182). The hardware records only the bit, so no field of State holds
one: "The cause names are for a model's trace" (log entry 13). -/
inductive IllegalCause where
  /-- Any word reserved by 30_encoding.md R85 or R86. -/
  | reservedEncoding
  /-- FRAME_POP with an empty queue. -/
  | popEmpty
  /-- FRAME_READ with an empty queue or an index past the head frame. -/
  | frameReadRange
deriving DecidableEq, Repr

/-- No step faults: "The block takes no traps and raises no exceptions" (60_exceptions.md R180, R184). The type has no
constructor (log entry 22). -/
inductive Fault where
deriving DecidableEq, Repr

/-- Why a step can be refused. -/
inductive Refusal where
  /-- Raised by an arm of exec whose instruction has no meaning yet: no arm of this model. Safe. -/
  | notModelled (mnemonic : String)
  /-- Raised by a link or a host turn that offers a transaction before the first reset (70_reset_and_hazards.md R201:
  a model "refuses them"). Safe. -/
  | beforeFirstReset
deriving DecidableEq, Repr

/-- The state. The first six elements are the block's own (10_state.md, summary table); `cfg` is the two parameters;
the rest are the port signals and the inputs on offer (log entries 2, 4 and 5). -/
structure State where
  /-- KNOWN_TYPES and OUT_DEPTH (10_state.md R42): no step writes it (log entry 1). -/
  cfg : Config
  /-- The receive buffer, front the oldest byte (10_state.md R22). -/
  buf : List Byte
  /-- The output frame queue, front the head (10_state.md R25). -/
  outq : List Frame
  /-- Bytes discarded by resync, modulo 2^32 (10_state.md R27). -/
  dropCount : BitVec 32
  /-- The checksum accumulator (10_state.md R28). -/
  cksAcc : BitVec 8
  /-- Has a byte been accumulated (10_state.md R29). -/
  cksAny : Bool
  /-- The sticky ILLEGAL bit (10_state.md R31). -/
  illegal : Bool
  /-- The response of the last host command (30_encoding.md R75; log entry 4). -/
  rsp : BitVec 32
  /-- Has a reset event happened (70_reset_and_hazards.md R201; log entry 5). -/
  afterReset : Bool
  /-- The bytes the link agent offers, in stream order (20_memory.md R56, R61; log entry 2). -/
  linkIn : List Byte
  /-- The command words the host agent will issue, in order (30_encoding.md R72; log entry 2). -/
  hostIn : List Cmd
  /-- Whose turn it is, next first (20_memory.md R61; log entry 2). -/
  turns : List Turn
deriving DecidableEq, Repr

/-- The machine right after reset: the six elements as 10_state.md R40 gives them, the parameters at their defaults
(00_scope.md R10, R11), nothing offered (log entries 1, 2 and 4). -/
def State.reset : State where
  cfg := Config.default
  buf := []
  outq := []
  dropCount := 0x00000000#32
  cksAcc := 0x00#8
  cksAny := false
  illegal := false
  rsp := 0x00000000#32
  afterReset := true
  linkIn := []
  hostIn := []
  turns := []

end Sys2Proof.Machine
end

