-- ==== Sys2Proof/Machine/Ops.lean ====
section
/-! DEFINITION. The operations that the meanings share: the checksum, the error bit, the response, the reset event, the
parts of a frame, and the detector's decision loop. -/

namespace Sys2Proof.Machine

/-! ### Checksum (00_scope.md R15, 40_checksum.md R100, R104) -/

/-- `checksum(s) = foldl(xor, 0x00, s)`. -/
def checksum (bytes : List Byte) : Byte := bytes.foldl (fun acc b => acc ^^^ b) 0x00#8

/-- `verify(s)`: the checksum of all bytes but the last equals the last; false for the empty sequence. -/
def verifyChecksum (bytes : List Byte) : Bool :=
  match bytes.getLast? with
  | some last => checksum bytes.dropLast == last
  | none => false

/-! ### Response and error bit -/

/-- `rsp <- v` (00_scope.md R14). -/
def State.respond (s : State) (v : Word) : State := { s with rsp := v }

/-- `raise Illegal(info)`: sets the sticky bit and `rsp <- 0`, and nothing else (00_scope.md R14, 60_exceptions.md R182).
This is the block's whole exception entry: nothing is saved, no mode changes, control goes nowhere (R184). The hardware
records no cause, so `_info` is not stored (log entry 13). -/
def State.raiseIllegal (s : State) (_info : IllegalCause) : State := { s with illegal := true, rsp := 0x00000000#32 }

/-! ### The reset event -/

/-- The reset event of 70_reset_and_hazards.md R200. The parameters stay (R42), and what the agents offer stays with them
(R202); `rsp` becomes 0 (log entry 4). -/
def State.resetEvent (s : State) : State :=
  { s with
    buf := []
    outq := []
    dropCount := 0x00000000#32
    cksAcc := 0x00#8
    cksAny := false
    illegal := false
    rsp := 0x00000000#32
    afterReset := true }

/-! ### The fields of a frame (10_state.md R26)

Every frame in a reachable `outq` is `frameSize length` bytes long, so no index is out of range there (log entry 11). -/

def Frame.markerByte (f : Frame) : Byte := f.getD 0 0x00#8

def Frame.typeIdByte (f : Frame) : Byte := f.getD 1 0x00#8

def Frame.lengthByte (f : Frame) : Byte := f.getD 2 0x00#8

def Frame.payloadBytes (f : Frame) : List Byte := (f.drop 3).take (Frame.lengthByte f).toNat

def Frame.rsiByte (f : Frame) : Byte := f.getD (3 + (Frame.lengthByte f).toNat) 0x00#8

/-! ### The receive buffer and its decision loop (41_frame_detector.md R121 to R127) -/

/-- `rx_ready := |outq| < OUT_DEPTH` (10_state.md R43). -/
def State.rxReady (s : State) : Bool := decide (s.outq.length < s.cfg.outDepth)

/-- Append (R121): the byte goes to the back. -/
def State.append (s : State) (d : Byte) : State := { s with buf := s.buf ++ [d] }

/-- Extraction (R125): the first `n` bytes are emitted as one frame and removed. -/
def State.extract (s : State) (n : Nat) : State :=
  { s with outq := s.outq ++ [s.buf.take n], buf := s.buf.drop n }

/-- Resync (R126): exactly one byte is dropped from the front and counted modulo 2^32. -/
def State.resync (s : State) : State := { s with buf := s.buf.drop 1, dropCount := s.dropCount + 1 }

/-- The header word at the front, once three bytes are there (30_encoding.md R77). -/
def State.front (s : State) : Option Hdr :=
  match s.buf with
  | m :: t :: len :: _ => some (Hdr.ofBytes m t len)
  | _ => none

/-- One iteration of the loop of R122; `none` where the loop exits, with nothing dropped (R127). -/
def State.iteration (s : State) : Option State :=
  match s.buf with
  | m :: t :: len :: _ =>
    if recognised s.cfg.knownTypes m t then
      if frameSize len ≤ s.buf.length then some (s.extract (frameSize len)) else none
    else some s.resync
  | _ => none

/-- At most `fuel` iterations of the loop of R122. -/
def State.loopFor : Nat → State → State
  | 0, s => s
  | fuel + 1, s =>
    match s.iteration with
    | some t => State.loopFor fuel t
    | none => s

/-- The decision loop of R122, run until it exits: every iteration removes a byte, so |buf| iterations are enough (log
entry 9). The loop goes on after an extraction (90_conflicts.md C1). -/
def State.decisionLoop (s : State) : State := State.loopFor s.buf.length s

/-- The effect of an accepted RX byte: append, then the decision loop (R120). -/
def State.acceptByte (s : State) (d : Byte) : State := (s.append d).decisionLoop

/-- RX bytes accepted one after the other (20_memory.md R67). -/
def State.acceptBytes (s : State) (bytes : List Byte) : State := bytes.foldl State.acceptByte s

/-- The document's `feed(new_bytes)`: the loop run once after all of the chunk is appended (41_frame_detector.md R131).
No transaction does this; it is the other side of chunk invariance. -/
def State.feed (s : State) (chunk : List Byte) : State := ({ s with buf := s.buf ++ chunk } : State).decisionLoop

/-! ### Header classes (30_encoding.md R78) -/

/-- Is `i` the class that the front of the buffer decodes to? -/
def State.selectsClass (s : State) (i : Instr) : Bool :=
  match s.front with
  | some h => decodeHeader s.cfg.knownTypes h == .instr i
  | none => false

/-- The action of a recognised class: wait, or extract the complete frame (R78: "wait for / extract frame"). -/
def State.extractOrWait (s : State) (len : Byte) : State :=
  if frameSize len ≤ s.buf.length then s.extract (frameSize len) else s

end Sys2Proof.Machine
end

