-- ==== Sys2Proof/Machine/Flags.lean ====
section
/-! DEFINITION. The mode, the status bits and the output signals: all functions of the state (10_state.md R24, R30, R43). -/

namespace Sys2Proof.Machine

/-- The two states of the detector's state machine (10_state.md R24). -/
inductive Mode where
  | scanning
  | draining
deriving DecidableEq, Repr

/-- `mode(buf)` (10_state.md R24). -/
def modeOf (known : List Byte) (buf : List Byte) : Mode :=
  match buf with
  | b0 :: b1 :: _ :: _ => if recognised known b0 b1 then .draining else .scanning
  | _ => .scanning

def State.mode (s : State) : Mode := modeOf s.cfg.knownTypes s.buf

/-- `irq := |outq| > 0` (10_state.md R43, 60_exceptions.md R185). -/
def State.irq (s : State) : Bool := decide (0 < s.outq.length)

/-- STATUS.FRAME_AVAIL. -/
def State.frameAvail (s : State) : Bool := decide (0 < s.outq.length)

/-- STATUS.DRAINING. -/
def State.draining (s : State) : Bool := s.mode == .draining

/-- STATUS.CKS_OK: `cks_any = 1 and cks_acc = 0x00`. -/
def State.cksOk (s : State) : Bool := s.cksAny && s.cksAcc == 0x00#8

/-- The 32-bit word with `b` at bit `n` and zeros elsewhere. -/
def bitAt (b : Bool) (n : Nat) : Word := (BitVec.ofBool b).setWidth 32 <<< n

/-- STATUS (10_state.md R30); bits 31:6 are hardwired zero. -/
def State.status (s : State) : Word :=
  bitAt s.frameAvail 0 ||| bitAt s.rxReady 1 ||| bitAt s.draining 2 ||| bitAt s.cksAny 3 ||| bitAt s.cksOk 4
    ||| bitAt s.illegal 5

end Sys2Proof.Machine
end

