-- ==== Sys2Proof/Machine/Operands.lean ====
section
/-! DEFINITION. What a read gives: the registers of REGS and the bytes of FRAME_VIEW (20_memory.md R51). -/

namespace Sys2Proof.Machine

/-- OUT_COUNT: `zext_32(|outq|)` (10_state.md R33); a free value where the count does not fit (log entry 10). -/
def State.outCount (s : State) : Word :=
  if s.outq.length < 2 ^ 32 then BitVec.ofNat 32 s.outq.length else Config.freeOutCount s.outq.length

/-- BUF_LEN: `zext_32(|buf|)` (10_state.md R34; log entry 11). -/
def State.bufLen (s : State) : Word := BitVec.ofNat 32 s.buf.length

/-- HEAD_INFO: `{1'b1, 7'b0, rsi, length, type_id}` of the head frame, 0 with an empty queue (10_state.md R37). -/
def State.headInfo (s : State) : Word :=
  match s.outq with
  | [] => 0x00000000#32
  | f :: _ => 1#1 ++ 0#7 ++ Frame.rsiByte f ++ Frame.lengthByte f ++ Frame.typeIdByte f

/-- `MemRead(REGS, addr, 4)` (20_memory.md R51, 10_state.md R32); no register at 0x6..0xF (R38). -/
def State.readReg (s : State) (addr : BitVec 4) : Option Word :=
  match addr.toNat with
  | 0 => some s.status
  | 1 => some s.outCount
  | 2 => some s.bufLen
  | 3 => some s.dropCount
  | 4 => some (s.cksAcc.setWidth 32)
  | 5 => some s.headInfo
  | _ => none

/-- `MemRead(FRAME_VIEW, idx, 1)`: byte `idx` of the head frame, where there is one (20_memory.md R51, R52). -/
def State.readFrameView (s : State) (idx : BitVec 9) : Option Byte :=
  match s.outq with
  | [] => none
  | f :: _ => f[idx.toNat]?

end Sys2Proof.Machine
end

