-- ==== Sys2Proof/Machine/Checksum.lean ====
section
/-! DEFINITION. The checksum commands (40_checksum.md). -/

namespace Sys2Proof.Machine

/-- CKS_CLEAR (40_checksum.md R101). -/
def execCksClear (s : State) : Host.Outcome State Fault Refusal :=
  .next (({ s with cksAcc := 0x00#8, cksAny := false } : State).respond 0x00000000#32)

/-- CKS_BYTE d (40_checksum.md R102). -/
def execCksByte (d : Byte) (s : State) : Host.Outcome State Fault Refusal :=
  .next (({ s with cksAcc := s.cksAcc ^^^ d, cksAny := true } : State).respond 0x00000000#32)

end Sys2Proof.Machine
end

