-- ==== Sys2Proof/Machine/Detector.lean ====
section
/-! DEFINITION. RX_BYTE and the header classes its decision loop meets (41_frame_detector.md). -/

namespace Sys2Proof.Machine

/-- RX_BYTE d (41_frame_detector.md R120). Where `rx_ready = 0` it has no step: "the byte stays with the link agent, is
not lost, and is accepted later" (20_memory.md R56, R136): it is offered again, first, and nothing else changes (log
entry 3). -/
def execRxByte (d : Byte) (s : State) : Host.Outcome State Fault Refusal :=
  if s.rxReady then .next (s.acceptByte d) else .next { s with linkIn := d :: s.linkIn }

/-! A header class is no transaction (30_encoding.md R70): its meaning is the iteration of the decision loop at a front
that decodes to it. At any other front it is not selected, and has no effect (log entry 6). -/

/-- HDR_LOG: wait for the frame, or extract it (30_encoding.md R78, 41_frame_detector.md R125). -/
def execHdrLog (length : Byte) (s : State) : Host.Outcome State Fault Refusal :=
  .next (if s.selectsClass (.hdrLog length) then s.extractOrWait length else s)

/-- HDR_PING_RESP_134: wait for the frame, or extract it (30_encoding.md R78, 41_frame_detector.md R125). -/
def execHdrPingResp134 (length : Byte) (s : State) : Host.Outcome State Fault Refusal :=
  .next (if s.selectsClass (.hdrPingResp134 length) then s.extractOrWait length else s)

/-- HDR_PING_RESP_136: wait for the frame, or extract it (30_encoding.md R78, 41_frame_detector.md R125). -/
def execHdrPingResp136 (length : Byte) (s : State) : Host.Outcome State Fault Refusal :=
  .next (if s.selectsClass (.hdrPingResp136 length) then s.extractOrWait length else s)

/-- The recognised class of any other known type: wait for the frame, or extract it (30_encoding.md R78: "every recognised
class is extracted by the same rule"; log entry 7). -/
def execHdrKnown (typeId length : Byte) (s : State) : Host.Outcome State Fault Refusal :=
  .next (if s.selectsClass (.hdrKnown typeId length) then s.extractOrWait length else s)

/-- HDR_NOISE: drop one byte and count it (30_encoding.md R78, 41_frame_detector.md R126). -/
def execHdrNoise (hdr : Hdr) (s : State) : Host.Outcome State Fault Refusal :=
  .next (if s.selectsClass (.hdrNoise hdr) then s.resync else s)

end Sys2Proof.Machine
end

