-- ==== Sys2Proof/Machine/HostOps.lean ====
section
/-! DEFINITION. The host commands of 42_host_ops.md. -/

namespace Sys2Proof.Machine

/-- NOP (42_host_ops.md R151). -/
def execNop (s : State) : Host.Outcome State Fault Refusal :=
  .next (s.respond 0x00000000#32)

/-- FRAME_POP (42_host_ops.md R152). -/
def execFramePop (s : State) : Host.Outcome State Fault Refusal :=
  match s.outq with
  | [] => .next (s.raiseIllegal .popEmpty)
  | _ :: rest => .next (({ s with outq := rest } : State).respond 0x00000000#32)

/-- FRAME_READ idx (42_host_ops.md R153). -/
def execFrameRead (idx : BitVec 9) (s : State) : Host.Outcome State Fault Refusal :=
  match s.readFrameView idx with
  | some b => .next (s.respond (b.setWidth 32))
  | none => .next (s.raiseIllegal .frameReadRange)

/-- REG_READ addr (42_host_ops.md R154). A word with addr 0x6..0xF is reserved and never decodes to this (30_encoding.md
R86); the term is executed as R158 executes the word (log entry 12). -/
def execRegRead (addr : BitVec 4) (s : State) : Host.Outcome State Fault Refusal :=
  match s.readReg addr with
  | some v => .next (s.respond v)
  | none => .next (s.raiseIllegal .reservedEncoding)

/-- CLR_ERR (42_host_ops.md R156). -/
def execClrErr (s : State) : Host.Outcome State Fault Refusal :=
  .next (({ s with illegal := false } : State).respond 0x00000000#32)

/-- RESET (42_host_ops.md R157): the reset event, and `rsp <- 0`. -/
def execReset (s : State) : Host.Outcome State Fault Refusal :=
  .next (s.resetEvent.respond 0x00000000#32)

end Sys2Proof.Machine
end

