-- ==== Sys2Proof/Machine/Dispatch.lean ====
section
/-! DEFINITION. One arm per instruction. -/

namespace Sys2Proof.Machine

def exec (i : Instr) (s : State) : Host.Outcome State Fault Refusal :=
  match i with
  | .rxByte d => Sys2Proof.Machine.execRxByte d s
  | .nop => Sys2Proof.Machine.execNop s
  | .framePop => Sys2Proof.Machine.execFramePop s
  | .frameRead idx => Sys2Proof.Machine.execFrameRead idx s
  | .regRead addr => Sys2Proof.Machine.execRegRead addr s
  | .cksClear => Sys2Proof.Machine.execCksClear s
  | .cksByte d => Sys2Proof.Machine.execCksByte d s
  | .clrErr => Sys2Proof.Machine.execClrErr s
  | .reset => Sys2Proof.Machine.execReset s
  | .hdrLog length => Sys2Proof.Machine.execHdrLog length s
  | .hdrPingResp134 length => Sys2Proof.Machine.execHdrPingResp134 length s
  | .hdrPingResp136 length => Sys2Proof.Machine.execHdrPingResp136 length s
  | .hdrKnown typeId length => Sys2Proof.Machine.execHdrKnown typeId length s
  | .hdrNoise hdr => Sys2Proof.Machine.execHdrNoise hdr s

end Sys2Proof.Machine
end

