-- ==== Sys2Proof/Machine/Ports.lean ====
section
/-! DEFINITION. What each agent's turn does: the three kinds of transaction of 30_encoding.md R70, and the order of
events that meet in one clock cycle. -/

namespace Sys2Proof.Machine

/-- A host command word (42_host_ops.md R150): a legal word is executed by its row's rule, a reserved one by R158 and
nothing else. -/
def runCommand (w : Cmd) (s : State) : Host.Outcome State Fault Refusal :=
  match decodeCmd w with
  | .instr i => exec i s
  | .reject _ => .next (s.raiseIllegal .reservedEncoding)

/-- The cause for which the word sets ILLEGAL in this state, if any (60_exceptions.md R182, R183). -/
def commandCause (w : Cmd) (s : State) : Option IllegalCause :=
  match decodeCmd w with
  | .reject _ => some .reservedEncoding
  | .instr .framePop => if s.outq.isEmpty then some .popEmpty else none
  | .instr (.frameRead idx) => if (s.readFrameView idx).isNone then some .frameReadRange else none
  | .instr _ => none

/-- The link agent's turn: the byte it offers, if any, is one RX_BYTE transaction (20_memory.md R56). With none offered
the block holds its state (60_exceptions.md R193); before the first reset the transaction is refused
(70_reset_and_hazards.md R201). -/
def linkTurn (s : State) : Host.Outcome State Fault Refusal :=
  match s.linkIn with
  | [] => .next s
  | d :: rest =>
    if s.afterReset then exec (decodeRx d) { s with linkIn := rest } else .refused .beforeFirstReset

/-- The host agent's turn: its next command word, if any. Before the first reset only the RESET word, itself a reset event
(70_reset_and_hazards.md R200), has a meaning (log entry 5). -/
def hostTurn (s : State) : Host.Outcome State Fault Refusal :=
  match s.hostIn with
  | [] => .next s
  | w :: rest =>
    if s.afterReset || decodeCmd w == .instr .reset then runCommand w { s with hostIn := rest }
    else .refused .beforeFirstReset

/-- The platform's turn: a pulse of `rst` (70_reset_and_hazards.md R200). -/
def rstTurn (s : State) : Host.Outcome State Fault Refusal := .next s.resetEvent

/-- Is the host's next command word RESET, a reset event like the `rst` input (70_reset_and_hazards.md R200)? -/
def State.offersResetWord (s : State) : Bool :=
  match s.hostIn with
  | [] => false
  | w :: _ => decodeCmd w == .instr .reset

/-- Events that meet in one clock cycle (20_memory.md R62, 60_exceptions.md R187): the `rst` input alone; otherwise the host
command and then the RX byte, with `rx_ready` evaluated before the host command. Where that command is RESET, a reset event
(70_reset_and_hazards.md R200), the byte is not accepted and stays offered (R202). The step of this model has no clock and
takes one transaction at a time; this is one interleaving of its steps (log entry 16). -/
def clockCycle (rst cmd rx : Bool) (s : State) : Host.Outcome State Fault Refusal :=
  if rst then rstTurn s
  else if cmd && s.offersResetWord then hostTurn s
  else
    match (if cmd then hostTurn s else .next s) with
    | .next t => if rx && s.rxReady then linkTurn t else .next t
    | .fault r => .fault r
    | .refused r => .refused r

/-- The state in which the platform gives `s` the parameters `c` (00_scope.md R10, R11: fixed at elaboration). -/
def State.withConfig (s : State) (c : Config) : State := { s with cfg := c }

/-- `s` with the encoded word offered so that the next step runs it (log entry 8). RX8 and CMD16 words are offered at
their ports. A header class is met by the decision loop when its third byte arrives: the first two bytes stand in the
buffer, the third is offered, and a full output queue is emptied so that the RX port accepts it. -/
def State.offer (s : State) : Encoded → State
  | .rx8 d => { s with afterReset := true, linkIn := d :: s.linkIn, turns := .link :: s.turns }
  | .cmd16 w => { s with afterReset := true, hostIn := w :: s.hostIn, turns := .host :: s.turns }
  | .hdr24 h =>
    { s with
      afterReset := true
      buf := [Hdr.marker h, Hdr.typeId h]
      outq := if s.rxReady then s.outq else []
      linkIn := Hdr.length h :: s.linkIn
      turns := .link :: s.turns }

end Sys2Proof.Machine
end

