-- ==== Sys2Proof/Machine/Step.lean ====
section
/-! DEFINITION. One step: the next turn, one transaction (20_memory.md R57, R61). -/

namespace Sys2Proof.Machine

/-- The agent whose turn it is takes it. With no turn left nothing happens: the block "holds its state while no
transaction arrives" (60_exceptions.md R193; log entry 14). -/
def step (s : State) : Host.Outcome State Fault Refusal :=
  match s.turns with
  | [] => .next s
  | .link :: rest => linkTurn { s with turns := rest }
  | .host :: rest => hostTurn { s with turns := rest }
  | .rst :: rest => rstTurn { s with turns := rest }

/-- `s` with a word, as spec/opcode_table.json numbers its bits, placed where the next step takes its transaction (log
entry 8). A value that is no word of the three formats changes nothing. -/
def State.withFetchWord (s : State) (nbits w : Nat) : State :=
  match encodedOfTableWord nbits w with
  | some e => s.offer e
  | none => s

end Sys2Proof.Machine
end

