-- ==== Sys2Proof/Safety.lean ====
section
/-! DEFINITION. What holds of the block between transactions, in the terms the statements use. -/

namespace Sys2Proof.Machine

/-- INV of 41_frame_detector.md R128, whose SCANNING and DRAINING are 10_state.md R24's: fewer than three bytes, or a
recognised header whose frame is not complete. -/
abbrev bufferInv (known : List Byte) (buf : List Byte) : Prop :=
  (modeOf known buf = .scanning ∧ buf.length ≤ 2) ∨
  (modeOf known buf = .draining ∧ buf.length < frameSize (buf.getD 2 0x00#8))

/-- What 10_state.md R26 says of a frame: marker, known type, and exactly the bytes its length counts. -/
abbrev Frame.WellFormed (known : List Byte) (f : Frame) : Prop :=
  Frame.markerByte f = marker ∧ Frame.typeIdByte f ∈ known ∧ f.length = frameSize (Frame.lengthByte f)

/-- The invariant of a run: the buffer meets INV (R128), the queue holds well-formed frames, at most OUT_DEPTH of them
(R25, R136), and an empty checksum has the value 0 (10_state.md R28, R29). Before the first reset every element may hold
any value (70_reset_and_hazards.md R201), so nothing is said there. -/
abbrev State.Inv (s : State) : Prop :=
  s.cfg.Legal ∧
  (s.afterReset = true →
    bufferInv s.cfg.knownTypes s.buf ∧
    (∀ f ∈ s.outq, Frame.WellFormed s.cfg.knownTypes f) ∧
    s.outq.length ≤ s.cfg.outDepth ∧
    (s.cksAny = false → s.cksAcc = 0x00#8))

/-- What the loop of 41_frame_detector.md R122 may do to a buffer, step by step of the rule's text: `Drains known b fs n b'`
says that from the buffer `b` it emits the frames `fs` in that order, drops `n` bytes, and exits with `b'` left. -/
inductive Drains (known : List Byte) : List Byte → List Frame → Nat → List Byte → Prop where
  /-- Step 3: too few bytes to inspect. -/
  | tooFew {b : List Byte} : b.length < 3 → Drains known b [] 0 b
  /-- Step 2d: recognised, incomplete; nothing is dropped. -/
  | incomplete {t len : Byte} {rest : List Byte} :
      t ∈ known → (0xCC#8 :: t :: len :: rest).length < 3 + len.toNat + 1 →
      Drains known (0xCC#8 :: t :: len :: rest) [] 0 (0xCC#8 :: t :: len :: rest)
  /-- Step 2c: a complete frame is emitted and removed, and the loop continues. -/
  | complete {t len : Byte} {body after : List Byte} {fs : List Frame} {n : Nat} {b' : List Byte} :
      t ∈ known → body.length = len.toNat + 1 → Drains known after fs n b' →
      Drains known (0xCC#8 :: t :: len :: (body ++ after)) ((0xCC#8 :: t :: len :: body) :: fs) n b'
  /-- Step 2e: not recognised; exactly one byte is dropped and counted, and the loop continues. -/
  | noise {m t len : Byte} {rest : List Byte} {fs : List Frame} {n : Nat} {b' : List Byte} :
      ¬(m = 0xCC#8 ∧ t ∈ known) → Drains known (t :: len :: rest) fs n b' →
      Drains known (m :: t :: len :: rest) fs (n + 1) b'

/-- The commands of the host agent (60_exceptions.md R190), RESET aside. -/
def isHostCommandButReset : Instr → Bool
  | .nop => true
  | .framePop => true
  | .frameRead _ => true
  | .regRead _ => true
  | .cksClear => true
  | .cksByte _ => true
  | .clrErr => true
  | .reset => false
  | .rxByte _ => false
  | .hdrLog _ => false
  | .hdrPingResp134 _ => false
  | .hdrPingResp136 _ => false
  | .hdrKnown _ _ => false
  | .hdrNoise _ => false

/-- The state that differs from `s` in the checksum unit, the error bit and the response only: what RX_BYTE never reads
(40_checksum.md R106, 42_host_ops.md R159). -/
def State.withHostSide (s : State) (acc : Byte) (any ill : Bool) (v : Word) : State :=
  { s with cksAcc := acc, cksAny := any, illegal := ill, rsp := v }

end Sys2Proof.Machine
end

