-- ==== Sys2Proof/Certificates/Slice0/Obligations.lean ====
section
/-! DEFINITION. The statements for the provers. Each docstring names the rule of spec/ it formalises; a clause that is the
model's own choice says so and names its log entry. -/

open Sys2Proof Sys2Proof.Machine

/-! ### Host commands: result and frame -/

/-- R151. NOP is the word 0x0000, leaves the state unchanged and answers 0; 0x0001..0x0FFF are reserved. -/
def Obligations.NopLeavesStateUnchanged : Prop :=
  decodeCmd 0x0000#16 = .instr .nop ∧
  (∀ s : State, exec .nop s = .next { s with rsp := 0#32 }) ∧
  (∀ (w : Cmd) (s : State), 0x0001 ≤ w.toNat → w.toNat ≤ 0x0FFF →
    runCommand w s = .next { s with illegal := true, rsp := 0#32 })

/-- R152. FRAME_POP removes the head frame and nothing else; on an empty queue it only raises Illegal. After a pop of a
queue that held at most OUT_DEPTH frames RX_READY is 1, and FRAME_AVAIL and irq say whether a frame is left. -/
def Obligations.FramePopRemovesHead : Prop :=
  decodeCmd 0x1000#16 = .instr .framePop ∧
  (∀ (s : State) (f : Frame) (q : List Frame), s.outq = f :: q →
    exec .framePop s = .next { s with outq := q, rsp := 0#32 }) ∧
  (∀ s : State, s.outq = [] → exec .framePop s = .next { s with illegal := true, rsp := 0#32 }) ∧
  (∀ (s t : State) (f : Frame) (q : List Frame), s.outq = f :: q → s.outq.length ≤ s.cfg.outDepth →
    exec .framePop s = .next t →
    t.status.getLsbD 1 = true ∧ t.status.getLsbD 0 = !q.isEmpty ∧ t.irq = !q.isEmpty)

/-- R153. FRAME_READ idx answers byte idx of the head frame, zero-extended, and changes nothing else; past the frame, or
with no frame, it only raises Illegal. For a head frame laid out as R26 says, idx 0 answers 0xCC, idx 2 the length, idx
3 + length the rsi, and every idx from 4 + length on raises Illegal. -/
def Obligations.FrameReadAnswersHeadByte : Prop :=
  (∀ idx : BitVec 9, decodeCmd (0x2000#16 ||| idx.setWidth 16) = .instr (.frameRead idx)) ∧
  (∀ (s : State) (f : Frame) (q : List Frame) (idx : BitVec 9) (h : idx.toNat < List.length f), s.outq = f :: q →
    exec (.frameRead idx) s = .next { s with rsp := (f[idx.toNat]'h).setWidth 32 }) ∧
  (∀ (s : State) (f : Frame) (q : List Frame) (idx : BitVec 9), s.outq = f :: q → List.length f ≤ idx.toNat →
    exec (.frameRead idx) s = .next { s with illegal := true, rsp := 0#32 }) ∧
  (∀ (s : State) (idx : BitVec 9), s.outq = [] →
    exec (.frameRead idx) s = .next { s with illegal := true, rsp := 0#32 }) ∧
  (∀ (s : State) (f : Frame) (q : List Frame) (idx : BitVec 9), s.outq = f :: q →
    Frame.WellFormed s.cfg.knownTypes f → 259 ≤ idx.toNat →
    exec (.frameRead idx) s = .next { s with illegal := true, rsp := 0#32 }) ∧
  (∀ (s : State) (t len rsi : Byte) (payload : List Byte) (q : List Frame), payload.length = len.toNat →
    s.outq = (0xCC#8 :: t :: len :: (payload ++ [rsi])) :: q →
    exec (.frameRead 0#9) s = .next { s with rsp := 0x000000CC#32 } ∧
    exec (.frameRead 2#9) s = .next { s with rsp := len.setWidth 32 } ∧
    exec (.frameRead (BitVec.ofNat 9 (3 + len.toNat))) s = .next { s with rsp := rsi.setWidth 32 } ∧
    (∀ idx : BitVec 9, 4 + len.toNat ≤ idx.toNat →
      exec (.frameRead idx) s = .next { s with illegal := true, rsp := 0#32 }))

/-- R52 (its address table). For a head frame laid out as R76 says, FRAME_READ at each wire offset answers the marker, the
type, the length, the payload bytes and the rsi, and every later address raises Illegal. -/
def Obligations.FrameViewIsWireOrder : Prop :=
  ∀ (s : State) (t len rsi : Byte) (payload : List Byte) (q : List Frame), payload.length = len.toNat →
    s.outq = (0xCC#8 :: t :: len :: (payload ++ [rsi])) :: q →
    exec (.frameRead 0#9) s = .next { s with rsp := 0x000000CC#32 } ∧
    exec (.frameRead 1#9) s = .next { s with rsp := t.setWidth 32 } ∧
    exec (.frameRead 2#9) s = .next { s with rsp := len.setWidth 32 } ∧
    (∀ (i : Nat) (h : i < payload.length),
      exec (.frameRead (BitVec.ofNat 9 (3 + i))) s = .next { s with rsp := (payload[i]'h).setWidth 32 }) ∧
    exec (.frameRead (BitVec.ofNat 9 (3 + len.toNat))) s = .next { s with rsp := rsi.setWidth 32 } ∧
    (∀ idx : BitVec 9, 4 + len.toNat ≤ idx.toNat →
      exec (.frameRead idx) s = .next { s with illegal := true, rsp := 0#32 })

/-- R154. REG_READ of a legal address answers that register and changes nothing else; addresses 0x6..0xF are reserved words
that raise Illegal and read nothing. -/
def Obligations.RegReadAnswersRegister : Prop :=
  (∀ addr : BitVec 4, addr.toNat ≤ 5 → decodeCmd (0x3000#16 ||| addr.setWidth 16) = .instr (.regRead addr)) ∧
  (∀ (addr : BitVec 4) (s : State), 6 ≤ addr.toNat →
    runCommand (0x3000#16 ||| addr.setWidth 16) s = .next { s with illegal := true, rsp := 0#32 }) ∧
  (∀ s : State,
    exec (.regRead 0#4) s = .next { s with rsp := s.status } ∧
    exec (.regRead 1#4) s = .next { s with rsp := s.outCount } ∧
    exec (.regRead 2#4) s = .next { s with rsp := s.bufLen } ∧
    exec (.regRead 3#4) s = .next { s with rsp := s.dropCount } ∧
    exec (.regRead 4#4) s = .next { s with rsp := s.cksAcc.setWidth 32 } ∧
    exec (.regRead 5#4) s = .next { s with rsp := s.headInfo }) ∧
  (∀ s : State, s.illegal = true → s.status.getLsbD 5 = true) ∧
  exec (.regRead 0#4) State.reset = .next { State.reset with rsp := 0x00000002#32 }

/-- Log entry 12, the model's choice: a REG_READ term of a reserved address, which no word decodes to (R86), executes as
R158 executes the word. -/
def Obligations.RegReadReservedAddressRaisesIllegal : Prop :=
  ∀ (addr : BitVec 4) (s : State), 6 ≤ addr.toNat →
    exec (.regRead addr) s = .next { s with illegal := true, rsp := 0#32 } ∧
    ∀ w : Cmd, decodeCmd w ≠ .instr (.regRead addr)

/-- R101. CKS_CLEAR starts a new checksum and touches nothing else; a word 0x4000 with an arg bit set raises Illegal. -/
def Obligations.CksClearStartsChecksum : Prop :=
  decodeCmd 0x4000#16 = .instr .cksClear ∧
  (∀ s : State, exec .cksClear s = .next { s with cksAcc := 0x00#8, cksAny := false, rsp := 0#32 }) ∧
  (∀ s t : State, exec .cksClear s = .next t → t.status.getLsbD 3 = false ∧ t.status.getLsbD 4 = false) ∧
  (∀ (w : Cmd) (s : State), 0x4001 ≤ w.toNat → w.toNat ≤ 0x4FFF →
    runCommand w s = .next { s with illegal := true, rsp := 0#32 })

/-- R102. CKS_BYTE d accumulates d by XOR and touches nothing else; a word 0x5000 with arg[11:8] set raises Illegal. -/
def Obligations.CksByteAccumulates : Prop :=
  (∀ d : Byte, decodeCmd (0x5000#16 ||| d.setWidth 16) = .instr (.cksByte d)) ∧
  (∀ (d : Byte) (s : State),
    exec (.cksByte d) s = .next { s with cksAcc := s.cksAcc ^^^ d, cksAny := true, rsp := 0#32 }) ∧
  (∀ (d : Byte) (s t : State), exec (.cksByte d) s = .next t →
    t.status.getLsbD 3 = true ∧ (t.status.getLsbD 4 = true ↔ s.cksAcc ^^^ d = 0x00#8)) ∧
  (∀ (w : Cmd) (s : State), 0x5100 ≤ w.toNat → w.toNat ≤ 0x5FFF →
    runCommand w s = .next { s with illegal := true, rsp := 0#32 })

/-- R156. CLR_ERR clears the sticky bit and touches nothing else; a CLR_ERR word with reserved bits set sets it instead. -/
def Obligations.ClrErrClearsIllegal : Prop :=
  decodeCmd 0x6000#16 = .instr .clrErr ∧
  (∀ s : State, exec .clrErr s = .next { s with illegal := false, rsp := 0#32 }) ∧
  (∀ s t : State, exec .clrErr s = .next t → t.status.getLsbD 5 = false) ∧
  (∀ (w : Cmd) (s : State), 0x6001 ≤ w.toNat → w.toNat ≤ 0x6FFF →
    runCommand w s = .next { s with illegal := true, rsp := 0#32 })

/-- R157. RESET applies the reset event: the six elements at their reset values, STATUS = 0x00000002 (OUT_DEPTH is at
least 1, R11), the parameters and everything the agents offer unchanged. Nothing is said of `afterReset`, the model's own
bookkeeping (log entry 5). -/
def Obligations.ResetCommandClearsBlock : Prop :=
  decodeCmd 0x7000#16 = .instr .reset ∧
  (∀ s : State, ∃ a, exec .reset s = .next
    { s with buf := [], outq := [], dropCount := 0#32, cksAcc := 0x00#8, cksAny := false, illegal := false, rsp := 0#32,
             afterReset := a }) ∧
  (∀ s t : State, s.cfg.Legal → exec .reset s = .next t →
    t.status = 0x00000002#32 ∧ t.bufLen = 0#32 ∧ t.outCount = 0#32)

/-- R75. Every command word produces a response, and a command other than FRAME_READ and REG_READ, and every command with a
cause that raises Illegal, answers 0. -/
def Obligations.OtherCommandsAnswerZero : Prop :=
  ∀ (w : Cmd) (s : State), ∃ t, runCommand w s = .next t ∧
    ((∀ idx, decodeCmd w ≠ .instr (.frameRead idx)) ∧ (∀ addr, decodeCmd w ≠ .instr (.regRead addr)) ∨
      (commandCause w s).isSome = true → t.rsp = 0#32)

/-! ### Registers, status and outputs -/

/-- R30. Every bit of STATUS, its reset value, and that a step clears the sticky bit only by CLR_ERR or reset. -/
def Obligations.StatusBitsAsSpecified : Prop :=
  (∀ s : State,
    s.status.getLsbD 0 = decide (s.outq.length > 0) ∧
    s.status.getLsbD 1 = decide (s.outq.length < s.cfg.outDepth) ∧
    s.status.getLsbD 2 = decide (modeOf s.cfg.knownTypes s.buf = .draining) ∧
    s.status.getLsbD 3 = s.cksAny ∧
    s.status.getLsbD 4 = (s.cksAny && decide (s.cksAcc = 0x00#8)) ∧
    s.status.getLsbD 5 = s.illegal ∧
    (∀ i, 6 ≤ i → s.status.getLsbD i = false)) ∧
  State.reset.status = 0x00000002#32 ∧
  (∀ s t : State, step s = .next t → s.status.getLsbD 5 = true → t.status.getLsbD 5 = false →
    (∃ ts, s.turns = .rst :: ts) ∨
    (∃ ts w ws, s.turns = .host :: ts ∧ s.hostIn = w :: ws ∧ (w = 0x6000#16 ∨ w = 0x7000#16)))

/-- R34 to R37, and R33 as far as the count fits. What the registers 0x1 to 0x5 read, and their reset values. OUT_COUNT is stated where |outq| fits in 32
bits (for a longer queue it is a free value, log entry 10), HEAD_INFO for a head frame laid out as R26 says. -/
def Obligations.RegisterContents : Prop :=
  (∀ s : State, s.outq.length < 2 ^ 32 → ∃ v : Word, s.readReg 1#4 = some v ∧ v.toNat = s.outq.length ∧
    (s.outq.length ≤ s.cfg.outDepth → v.toNat ≤ s.cfg.outDepth)) ∧
  (∀ s : State, bufferInv s.cfg.knownTypes s.buf →
    ∃ v : Word, s.readReg 2#4 = some v ∧ v.toNat = s.buf.length ∧ v.toNat ≤ 258) ∧
  (∀ s : State, s.readReg 3#4 = some s.dropCount) ∧
  (∀ s : State, ∃ v : Word, s.readReg 4#4 = some v ∧ v.toNat = s.cksAcc.toNat) ∧
  (∀ s : State, s.outq = [] → s.readReg 5#4 = some 0#32) ∧
  (∀ (s : State) (t len rsi : Byte) (payload : List Byte) (q : List Frame), payload.length = len.toNat →
    s.outq = (0xCC#8 :: t :: len :: (payload ++ [rsi])) :: q →
    ∃ v : Word, s.readReg 5#4 = some v ∧
      v.toNat = 2 ^ 31 + rsi.toNat * 2 ^ 16 + len.toNat * 2 ^ 8 + t.toNat) ∧
  (∀ addr : BitVec 4, 1 ≤ addr.toNat → addr.toNat ≤ 5 → State.reset.readReg addr = some 0#32)

/-- R31. `raise Illegal` sets the sticky bit; it stays until CLR_ERR or a reset; no RX transaction sets it; 0 at reset. -/
def Obligations.IllegalIsSticky : Prop :=
  (∀ (s : State) (c : IllegalCause), s.raiseIllegal c = { s with illegal := true, rsp := 0#32 }) ∧
  (∀ s t : State, step s = .next t → s.illegal = true →
    t.illegal = true ∨ (∃ ts, s.turns = .rst :: ts) ∨
    (∃ ts w ws, s.turns = .host :: ts ∧ s.hostIn = w :: ws ∧ (w = 0x6000#16 ∨ w = 0x7000#16))) ∧
  (∀ (s t : State) (ts : List Turn), s.turns = .link :: ts → step s = .next t → t.illegal = s.illegal) ∧
  State.reset.illegal = false

/-- R182. A host command sets ILLEGAL for exactly three causes: a reserved word, a pop of an empty queue, a frame read out of
range. Each has no effect but `illegal <- 1` and `rsp <- 0`, so a second cause is indistinguishable from the first; without a cause no command sets the
bit, and no RX_BYTE does. -/
def Obligations.IllegalOnlyForNamedCauses : Prop :=
  (∀ (d : Byte) (s t : State), exec (.rxByte d) s = .next t → t.illegal = s.illegal) ∧
  ∀ (w : Cmd) (s : State),
    let cause := legalCommand w = false ∨ (w = 0x1000#16 ∧ s.outq = []) ∨
      (∃ idx : BitVec 9, w = 0x2000#16 ||| idx.setWidth 16 ∧ ∀ f q, s.outq = f :: q → List.length f ≤ idx.toNat)
    (cause → runCommand w s = .next { s with illegal := true, rsp := 0#32 }) ∧
    (¬cause → ∀ t, runCommand w s = .next t → t.illegal = true → s.illegal = true)

/-- R185. `irq` equals STATUS.FRAME_AVAIL; a step raises it only by an RX_BYTE that emits a frame into an empty queue, and
drops it only by a FRAME_POP that empties the queue or by a reset. -/
def Obligations.IrqIsFrameAvailable : Prop :=
  (∀ s : State, s.irq = s.status.getLsbD 0 ∧ (s.irq = true ↔ s.outq ≠ [])) ∧
  (∀ s t : State, step s = .next t → s.irq = false → t.irq = true →
    ∃ ts d ds, s.turns = .link :: ts ∧ s.linkIn = d :: ds ∧ s.outq = [] ∧ t.outq ≠ []) ∧
  (∀ s t : State, step s = .next t → s.irq = true → t.irq = false →
    (∃ ts, s.turns = .rst :: ts) ∨
    (∃ ts ws, s.turns = .host :: ts ∧ s.hostIn = 0x7000#16 :: ws) ∨
    (∃ ts ws f, s.turns = .host :: ts ∧ s.hostIn = 0x1000#16 :: ws ∧ s.outq = [f] ∧ t.outq = []))

/-- R58. REG_READ of 0x0..0x5 and FRAME_READ of a valid address have no side effect but their response, and repeated at once
answer the same. -/
def Obligations.ReadsAreIdempotent : Prop :=
  ∀ (i : Instr) (s t : State),
    ((∃ addr : BitVec 4, addr.toNat ≤ 5 ∧ i = .regRead addr) ∨
     (∃ (idx : BitVec 9) (f : Frame) (q : List Frame), i = .frameRead idx ∧ s.outq = f :: q ∧ idx.toNat < List.length f)) →
    exec i s = .next t → t = { s with rsp := t.rsp } ∧ exec i t = .next t

/-! ### RX_BYTE -/

/-- R121, R122. In every state where RX_READY is 1, whatever the buffer holds, RX_BYTE d runs the
decision loop of R122 on `buf ++ [d]`: some frames are emitted at the queue's tail, some bytes dropped and counted modulo
2^32, and nothing else changes. `Drains` is that rule's text, step by step; which frames, how many drops and what is left depend
on the bytes and the known types alone. Under INV one appended byte makes at most one emission or drop, so at most two
iterations. -/
def Obligations.RxByteRunsDecisionLoop : Prop :=
  (∀ (s : State) (d : Byte), s.outq.length < s.cfg.outDepth →
    ∃ (fs : List Frame) (n : Nat) (b : List Byte),
      Drains s.cfg.knownTypes (s.buf ++ [d]) fs n b ∧
      exec (.rxByte d) s = .next
        { s with buf := b, outq := s.outq ++ fs, dropCount := s.dropCount + BitVec.ofNat 32 n }) ∧
  (∀ (known : List Byte) (b : List Byte) (fs fs' : List Frame) (n n' : Nat) (r r' : List Byte),
    Drains known b fs n r → Drains known b fs' n' r' → fs = fs' ∧ n = n' ∧ r = r') ∧
  (∀ (known : List Byte) (b : List Byte) (d : Byte) (fs : List Frame) (n : Nat) (r : List Byte),
    bufferInv known b → Drains known (b ++ [d]) fs n r → fs.length + n ≤ 1)

/-- R128. Under INV an enabled RX_BYTE has exactly one of four outcomes, APPEND, EMIT, HOLD and DROP, in the rule's closed
form, and INV holds after it; INV holds of the empty buffer. -/
def Obligations.RxByteHasOneOfFourOutcomes : Prop :=
  (∀ (s : State) (d : Byte), bufferInv s.cfg.knownTypes s.buf → s.outq.length < s.cfg.outDepth →
    ((s.buf ++ [d]).length < 3 → exec (.rxByte d) s = .next { s with buf := s.buf ++ [d] }) ∧
    (∀ m t len rest, s.buf ++ [d] = m :: t :: len :: rest →
      (m = 0xCC#8 ∧ t ∈ s.cfg.knownTypes → (s.buf ++ [d]).length = 3 + len.toNat + 1 →
        exec (.rxByte d) s = .next { s with outq := s.outq ++ [s.buf ++ [d]], buf := [] }) ∧
      (m = 0xCC#8 ∧ t ∈ s.cfg.knownTypes → (s.buf ++ [d]).length ≠ 3 + len.toNat + 1 →
        (s.buf ++ [d]).length < 3 + len.toNat + 1 ∧ exec (.rxByte d) s = .next { s with buf := s.buf ++ [d] }) ∧
      (¬(m = 0xCC#8 ∧ t ∈ s.cfg.knownTypes) → rest = [] ∧
        exec (.rxByte d) s = .next { s with buf := [t, len], dropCount := s.dropCount + 1#32 })) ∧
    (∀ u, exec (.rxByte d) s = .next u → bufferInv u.cfg.knownTypes u.buf)) ∧
  (∀ known, bufferInv known [])

/-- R130. The state machine: from SCANNING a third byte finds a header (to DRAINING) or not (to SCANNING); from DRAINING the
byte that completes the frame leads to SCANNING, every other one stays. No host word, legal or reserved, changes the mode but
RESET, which leads to SCANNING, as a reset pulse does. No step changes it at all but one that accepts a byte or takes a reset
event: that a byte stalled at a full queue and an idle turn are steps is the model's choice (log entries 3 and 14). -/
def Obligations.ModeFollowsStateMachine : Prop :=
  (∀ (s u : State) (d : Byte), bufferInv s.cfg.knownTypes s.buf → s.outq.length < s.cfg.outDepth →
    exec (.rxByte d) s = .next u →
    (s.mode = .scanning → (s.buf ++ [d]).length < 3 → u.mode = .scanning) ∧
    (s.mode = .scanning → ∀ m t len, s.buf ++ [d] = [m, t, len] →
      (u.mode = .draining ↔ m = 0xCC#8 ∧ t ∈ s.cfg.knownTypes)) ∧
    (s.mode = .draining → ∀ m t len rest, s.buf ++ [d] = m :: t :: len :: rest →
      (u.mode = .scanning ↔ (s.buf ++ [d]).length = 3 + len.toNat + 1))) ∧
  (∀ (w : Cmd) (s u : State), w ≠ 0x7000#16 → runCommand w s = .next u → u.mode = s.mode) ∧
  (∀ s u : State, exec .reset s = .next u → u.mode = .scanning) ∧
  (∀ (s u : State) (ts : List Turn), s.turns = .rst :: ts → step s = .next u → u.mode = .scanning) ∧
  (∀ s u : State, step s = .next u →
    (∀ ts d ds, s.turns = .link :: ts → s.linkIn = d :: ds → s.cfg.outDepth ≤ s.outq.length) →
    (∀ ts ws, s.turns = .host :: ts → s.hostIn ≠ 0x7000#16 :: ws) →
    (∀ ts, s.turns ≠ .rst :: ts) → u.mode = s.mode)

/-- R124. Under INV the buffer holds at most 258 bytes, and at most BUF_CAP = 259 once a byte is appended. -/
def Obligations.BufferNeverOverflows : Prop :=
  ∀ (s : State) (d : Byte), bufferInv s.cfg.knownTypes s.buf →
    s.buf.length ≤ 258 ∧ (s.append d).buf.length ≤ bufCap

/-- Derived from R121, R125, R126. Every byte is accounted for: an accepted byte ends in the buffer, in an emitted frame, or
in the drop count, in every state. -/
def Obligations.RxByteConservesBytes : Prop :=
  ∀ (s t : State) (d : Byte), s.outq.length < s.cfg.outDepth → exec (.rxByte d) s = .next t →
    ∃ (fs : List Frame) (n : Nat), t.outq = s.outq ++ fs ∧ t.dropCount = s.dropCount + BitVec.ofNat 32 n ∧
      (fs.map List.length).sum + n + t.buf.length = s.buf.length + 1

/-- R56, R136: where RX_READY is 0 the byte is not accepted, is not lost, and stays first in line. That the turn passes with
nothing else changed is how this model shows "has no step" (log entry 3). -/
def Obligations.RxByteStallsWhileQueueFull : Prop :=
  (∀ (s : State) (d : Byte), s.cfg.outDepth ≤ s.outq.length →
    exec (.rxByte d) s = .next { s with linkIn := d :: s.linkIn }) ∧
  (∀ (s : State) (ts : List Turn), s.afterReset = true → s.cfg.outDepth ≤ s.outq.length → s.turns = .link :: ts →
    step s = .next { s with turns := ts })

/-- R210: a host that never pops stalls the link agent for ever; however many link turns come, a full queue leaves
everything as it is. That such a turn passes and the byte stays on offer is the model's choice for R56's "has no step" (log
entry 3; a UART that cannot wait loses the byte outside the block, R210). -/
def Obligations.FullQueueHoldsLinkForever : Prop :=
  ∀ (k : Nat) (s : State) (ts : List Turn), s.afterReset = true → s.cfg.outDepth ≤ s.outq.length →
    s.turns = List.replicate k .link ++ ts → Host.Core.run Sys2Proof.core k s = .next { s with turns := ts }

/-- R11. OUT_DEPTH decides only when the port is ready: the bytes accepted, it never changes which frames are emitted, their
order, the drops or the buffer. -/
def Obligations.OutDepthNeverChangesFrames : Prop :=
  ∀ (s : State) (depth : Nat) (bytes : List Byte),
    (s.withConfig { s.cfg with outDepth := depth }).acceptBytes bytes =
      (s.acceptBytes bytes).withConfig { s.cfg with outDepth := depth }

/-! ### Header classes -/

/-- R125 and R127 (b), for every recognised class of R78: the three that the table names, and the row of any other known
type (`hdrKnown`, the model's name for it: log entry 7). At a front of the class, whose type is known, a complete frame is
emitted at the queue's tail and removed, the bytes after it stay in order, and an incomplete one waits with nothing
dropped; nothing else changes. -/
def Obligations.RecognisedClassExtractsOrWaits : Prop :=
  ∀ (i : Instr) (ty len : Byte) (s : State),
    (i, ty) = (.hdrLog len, 0x81#8) ∨ (i, ty) = (.hdrPingResp134 len, 0x86#8) ∨ (i, ty) = (.hdrPingResp136 len, 0x88#8) ∨
      (i = .hdrKnown ty len ∧ ty ≠ 0x81#8 ∧ ty ≠ 0x86#8 ∧ ty ≠ 0x88#8) →
    ty ∈ s.cfg.knownTypes →
    (∀ body after, body.length = len.toNat + 1 → s.buf = 0xCC#8 :: ty :: len :: (body ++ after) →
      exec i s = .next { s with outq := s.outq ++ [0xCC#8 :: ty :: len :: body], buf := after }) ∧
    (∀ rest, s.buf = 0xCC#8 :: ty :: len :: rest → rest.length < len.toNat + 1 → exec i s = .next s)

/-- R126. At a front of three bytes that is not recognised, HDR_NOISE removes exactly one byte and counts it modulo 2^32;
nothing else changes. -/
def Obligations.NoiseClassDropsOneByte : Prop :=
  ∀ (s : State) (m t len : Byte) (rest : List Byte), s.buf = m :: t :: len :: rest →
    ¬(m = 0xCC#8 ∧ t ∈ s.cfg.knownTypes) →
    exec (.hdrNoise (m ++ t ++ len)) s = .next { s with buf := t :: len :: rest, dropCount := s.dropCount + 1#32 }

/-- Log entry 6, the model's choice: a header class has no effect at a front that does not decode to it (R78: a row acts on
the fronts it matches). -/
def Obligations.UnselectedClassHasNoEffect : Prop :=
  ∀ (i : Instr) (s : State),
    (∃ len, i = .hdrLog len ∨ i = .hdrPingResp134 len ∨ i = .hdrPingResp136 len ∨ ∃ ty, i = .hdrKnown ty len) ∨ (∃ h, i = .hdrNoise h) →
    (s.buf.length < 3 ∨ ∃ m t len rest, s.buf = m :: t :: len :: rest ∧
      decodeHeader s.cfg.knownTypes (m ++ t ++ len) ≠ .instr i) →
    exec i s = .next s

/-- Derived from R78, R122, R128. Under INV, the link turn whose byte makes a front of three bytes or more runs exactly the
header class that front decodes to, on the appended buffer. -/
def Obligations.LinkTurnRunsDecodedHeaderClass : Prop :=
  ∀ (s : State) (d m t len : Byte) (ds rest : List Byte) (ts : List Turn) (i : Instr),
    s.afterReset = true → bufferInv s.cfg.knownTypes s.buf → s.outq.length < s.cfg.outDepth →
    s.turns = .link :: ts → s.linkIn = d :: ds → s.buf ++ [d] = m :: t :: len :: rest →
    decodeHeader s.cfg.knownTypes (m ++ t ++ len) = .instr i →
    step s = exec i { s with turns := ts, linkIn := ds, buf := s.buf ++ [d] }

/-! ### Encoding -/

/-- Decoding the word of a well-formed instruction gives it back, for every instruction and operand, under every
KNOWN_TYPES (R71, R73, R78). -/
def Obligations.DecodeOfEncodeIsIdentity : Prop :=
  ∀ (known : List Byte) (i : Instr), i.wellFormed known = true → decode known (encode i) = .instr i

/-- Each word has one meaning: an instruction decoded from a word is well-formed and encodes to that word. -/
def Obligations.EncodeOfDecodeIsIdentity : Prop :=
  ∀ (known : List Byte) (e : Encoded) (i : Instr), decode known e = .instr i →
    i.wellFormed known = true ∧ encode i = e

/-- R84. A command word is legal exactly if its op is 0x0..0x7 and its reserved arg bits (R73) are zero and, for
REG_READ, its address is at most 0x5. `w.toNat / 2^12` is op, `w.toNat % 2^12` is arg. -/
def Obligations.LegalWordsAreTheUnreservedOnes : Prop :=
  ∀ w : Cmd,
    let op := w.toNat / 2 ^ 12
    let arg := w.toNat % 2 ^ 12
    legalCommand w = true ↔
      (op = 0 ∧ arg = 0) ∨ (op = 1 ∧ arg = 0) ∨ (op = 2 ∧ arg < 2 ^ 9) ∨ (op = 3 ∧ arg ≤ 5) ∨ (op = 4 ∧ arg = 0) ∨
      (op = 5 ∧ arg < 2 ^ 8) ∨ (op = 6 ∧ arg = 0) ∨ (op = 7 ∧ arg = 0)

/-- R74. "At most one row matches any word." -/
def Obligations.AtMostOneRowMatches : Prop :=
  ∀ w : Cmd, (commandRows.filter fun r => r.selects w).length ≤ 1

/-- R158. A reserved word performs no part of the command its op names: it only raises Illegal. -/
def Obligations.ReservedWordOnlyRaisesIllegal : Prop :=
  (∀ (w : Cmd) (s : State), legalCommand w = false → runCommand w s = .next { s with illegal := true, rsp := 0#32 }) ∧
  legalCommand 0x1001#16 = false ∧ (∀ addr : BitVec 4, 6 ≤ addr.toNat → legalCommand (0x3000#16 ||| addr.setWidth 16) = false)

/-- R78 under any KNOWN_TYPES: a header word decodes to HDR_NOISE exactly if it is not recognised, and to a recognised class
exactly at its own type id with its own length; the length byte plays no part in recognition. The last clause is R78's row of
a known type other than 0x81, 0x86 and 0x88, under the constructor `hdrKnown`: that it has a name of its own, which the table
does not give, is the model's choice (log entry 7). -/
def Obligations.HeaderDecodeFollowsKnownTypes : Prop :=
  ∀ (known : List Byte) (m t len : Byte),
    (decodeHeader known (m ++ t ++ len) = .instr (.hdrNoise (m ++ t ++ len)) ↔ ¬(m = 0xCC#8 ∧ t ∈ known)) ∧
    (decodeHeader known (m ++ t ++ len) = .instr (.hdrLog len) ↔ m = 0xCC#8 ∧ t ∈ known ∧ t = 0x81#8) ∧
    (decodeHeader known (m ++ t ++ len) = .instr (.hdrPingResp134 len) ↔ m = 0xCC#8 ∧ t ∈ known ∧ t = 0x86#8) ∧
    (decodeHeader known (m ++ t ++ len) = .instr (.hdrPingResp136 len) ↔ m = 0xCC#8 ∧ t ∈ known ∧ t = 0x88#8) ∧
    (decodeHeader known (m ++ t ++ len) = .instr (.hdrKnown t len) ↔
      m = 0xCC#8 ∧ t ∈ known ∧ t ≠ 0x81#8 ∧ t ≠ 0x86#8 ∧ t ≠ 0x88#8)

/-- Words written out from the tables of 95_test_vectors.md (EN-01, EN-02) decode as those tables say. -/
def Obligations.TableWordsDecode : Prop :=
  decodeTableWord 8 0xCC = some (.rxByte 0xCC#8) ∧ decodeTableWord 16 0x0000 = some .nop ∧
  decodeTableWord 16 0x1000 = some .framePop ∧ decodeTableWord 16 0x2103 = some (.frameRead 259#9) ∧
  decodeTableWord 16 0x3005 = some (.regRead 5#4) ∧ decodeTableWord 16 0x4000 = some .cksClear ∧
  decodeTableWord 16 0x50FF = some (.cksByte 0xFF#8) ∧ decodeTableWord 16 0x6000 = some .clrErr ∧
  decodeTableWord 16 0x7000 = some .reset ∧ decodeTableWord 24 0xCC81FF = some (.hdrLog 0xFF#8) ∧
  decodeTableWord 24 0xCC8604 = some (.hdrPingResp134 0x04#8) ∧ decodeTableWord 24 0xCC8804 = some (.hdrPingResp136 0x04#8) ∧
  decodeTableWord 24 0xCC8703 = some (.hdrNoise 0xCC8703#24) ∧ decodeTableWord 16 0x2200 = none ∧
  decodeTableWord 16 0xC3A5 = none

/-! ### The step -/

/-- R56, R61, R71: the byte the link agent offers is one RX_BYTE transaction. That whose turn it is stands first in the list
`turns`, what the agent offers first in the list `linkIn`, and that both are taken, is the model's choice (log entry 2). -/
def Obligations.StepRunsOfferedByte : Prop :=
  ∀ (s : State) (d : Byte) (ds : List Byte) (ts : List Turn), s.afterReset = true →
    s.turns = .link :: ts → s.linkIn = d :: ds →
    step s = exec (.rxByte d) { s with turns := ts, linkIn := ds }

/-- R150. A host turn with a legal word runs the instruction it decodes to, and with a reserved word only raises Illegal
(R158). That the turn and the word stand first in the lists `turns` and `hostIn`, and are taken, is the model's choice (log
entry 2). -/
def Obligations.StepRunsDecodedCommand : Prop :=
  ∀ (s : State) (w : Cmd) (ws : List Cmd) (ts : List Turn), s.afterReset = true →
    s.turns = .host :: ts → s.hostIn = w :: ws →
    (∀ i, decodeCmd w = .instr i → step s = exec i { s with turns := ts, hostIn := ws }) ∧
    (∀ r, decodeCmd w = .reject r →
      step s = .next { s with turns := ts, hostIn := ws, illegal := true, rsp := 0#32 })

/-- The host's placing of a word (log entry 8): the next step runs the instruction that an RX8 or CMD16 table word decodes
to, with nothing else changed than that the block is past its first reset. For an HDR24 word, under the default KNOWN_TYPES,
the next step runs the class on a buffer that holds the word's three bytes, first byte most significant (R77). -/
def Obligations.StepRunsPlacedWord : Prop :=
  (∀ (s : State) (nbits w : Nat) (i : Instr), nbits = 8 ∨ nbits = 16 → decodeTableWord nbits w = some i →
    step (s.withFetchWord nbits w) = exec i { s with afterReset := true }) ∧
  (∀ (s : State) (m t len : Byte) (i : Instr), s.cfg.Legal → s.cfg.knownTypes = Config.default.knownTypes →
    decodeTableWord 24 (m ++ t ++ len).toNat = some i →
    step (s.withFetchWord 24 (m ++ t ++ len).toNat) =
      exec i { s with afterReset := true, buf := [m, t, len],
                      outq := if s.outq.length < s.cfg.outDepth then s.outq else [] })

/-- R200. A reset pulse sets the six elements to their reset values in one step, and leaves the parameters. The RESET command
has the same effect on them. After it the mode is SCANNING, STATUS is 0x00000002, `rx_ready` is 1 and `irq` is 0. The bytes on
offer stay offered (R202); that the host's words stay offered too is the model's deduction from R62's "not accepted" (log entry
15). Nothing is said of `rsp`, the model's own there (log entry 4); `afterReset` after a reset event is the matter of
TransactionsBeforeFirstResetRefused. -/
def Obligations.ResetPulseClearsBlock : Prop :=
  ∀ (s : State) (ts : List Turn), s.turns = .rst :: ts →
    ∃ (t u : State) (v : Word) (a : Bool),
      step s = .next t ∧
      t = { s with buf := [], outq := [], dropCount := 0#32, cksAcc := 0x00#8, cksAny := false, illegal := false,
                   rsp := v, afterReset := a, turns := ts } ∧
      exec .reset { s with turns := ts } = .next u ∧ u = { t with rsp := u.rsp } ∧
      (s.cfg.Legal → t.mode = .scanning ∧ t.status = 0x00000002#32 ∧ t.rxReady = true ∧ t.irq = false)

/-- R193. While no transaction arrives the block holds its state: with no turn left nothing changes, and a turn of an agent
that offers nothing only passes (log entry 14 for the turn list). -/
def Obligations.IdleStepHoldsState : Prop :=
  (∀ s : State, s.turns = [] → step s = .next s) ∧
  (∀ (s : State) (ts : List Turn), s.turns = .link :: ts → s.linkIn = [] → step s = .next { s with turns := ts }) ∧
  (∀ (s : State) (ts : List Turn), s.turns = .host :: ts → s.hostIn = [] → step s = .next { s with turns := ts })

/-- R201. Before the first reset every byte and every word but RESET is refused. A reset pulse has its effect (R200) and ends
the refusal: it answers a state past its first reset. The RESET word does the same: that it may be the first reset is the
model's deduction from R200, and `afterReset` is the model's bookkeeping (log entry 5); what stays on offer is log entry 15, and
`rsp` log entry 4. -/
def Obligations.TransactionsBeforeFirstResetRefused : Prop :=
  ∀ s : State, s.afterReset = false →
    (∀ ts d ds, s.turns = .link :: ts → s.linkIn = d :: ds → step s = .refused .beforeFirstReset) ∧
    (∀ ts w ws, s.turns = .host :: ts → s.hostIn = w :: ws → w ≠ 0x7000#16 → step s = .refused .beforeFirstReset) ∧
    (∀ ts, s.turns = .rst :: ts → ∃ v, step s = .next
      { s with buf := [], outq := [], dropCount := 0#32, cksAcc := 0x00#8, cksAny := false, illegal := false, rsp := v,
               afterReset := true, turns := ts }) ∧
    (∀ ts ws, s.turns = .host :: ts → s.hostIn = 0x7000#16 :: ws →
      step s = exec .reset { s with turns := ts, hostIn := ws } ∧
      step s = .next
        { s with buf := [], outq := [], dropCount := 0#32, cksAcc := 0x00#8, cksAny := false, illegal := false, rsp := 0#32,
                 afterReset := true, turns := ts, hostIn := ws })

/-- R180, R184, R135. After the first reset no step faults, is refused, or stops in any way, in any state: setting ILLEGAL does
not stop the block, and no byte is an error. That a link turn at a full queue is a step, where R56 says that RX_BYTE has none,
and that a turn with nothing offered is one, is the model's choice (log entries 3 and 14). -/
def Obligations.EveryStepAfterResetCompletes : Prop :=
  ∀ s : State, s.afterReset = true → ∃ t, step s = .next t ∧ t.afterReset = true

/-- R42. No transaction and no reset changes KNOWN_TYPES or OUT_DEPTH. -/
def Obligations.ParametersNeverChange : Prop :=
  (∀ s t : State, step s = .next t → t.cfg = s.cfg) ∧
  (∀ (i : Instr) (s t : State), exec i s = .next t → t.cfg = s.cfg)

/-- R27. DROP_COUNT, under the invariant. A link turn adds 1 modulo 2^32 exactly where it accepts a byte that makes a front of
three bytes which is not recognised: that byte of the front is dropped, the offered byte is taken, and no frame is emitted.
Every other link turn, one stalled at a full queue or with nothing on offer among them, leaves it (that those are steps is the
model's choice, log entries 3 and 14). A reset makes it 0, so bytes lost at reset are not counted; every other step leaves
it. -/
def Obligations.DropCountChangesOnlyByResync : Prop :=
  ∀ s t : State, s.Inv → s.afterReset = true → step s = .next t →
    (∀ ts, s.turns = .link :: ts →
      (∃ d ds m ty len, s.linkIn = d :: ds ∧ s.outq.length < s.cfg.outDepth ∧ s.buf ++ [d] = [m, ty, len] ∧
        ¬(m = 0xCC#8 ∧ ty ∈ s.cfg.knownTypes) ∧ t.buf = (s.buf ++ [d]).drop 1 ∧ t.outq = s.outq ∧ t.linkIn = ds ∧
        t.dropCount = s.dropCount + 1#32) ∨
      ((∀ d ds m ty len, s.linkIn = d :: ds → s.outq.length < s.cfg.outDepth → s.buf ++ [d] = [m, ty, len] →
        m = 0xCC#8 ∧ ty ∈ s.cfg.knownTypes) ∧ t.dropCount = s.dropCount)) ∧
    (∀ ts, s.turns = .rst :: ts → t.dropCount = 0#32) ∧
    (∀ ts ws, s.turns = .host :: ts → s.hostIn = 0x7000#16 :: ws → t.dropCount = 0#32) ∧
    ((s.turns = [] ∨ ∃ ts, s.turns = .host :: ts ∧ ∀ ws, s.hostIn ≠ 0x7000#16 :: ws) → t.dropCount = s.dropCount)

/-- R62, R202. A same-cycle meeting of reset, command and byte has the effect of a run of single steps in the rules' order: the
`rst` input alone; else the command, then the byte if RX_READY was 1 before the command and the command is not RESET. In the
cycle of a reset event, the `rst` input or the RESET word (R200), the byte is not accepted and stays offered, before the first
reset too. That the cycle is the definition `clockCycle` beside the step, and its events turns of the lists, is the model's
(log entries 2 and 16); that the host's words stay offered through a pulse is log entry 15. -/
def Obligations.SameCycleEventsAreAnInterleaving : Prop :=
  (∀ (s : State) (rst cmd rx : Bool), s.afterReset = true →
    let byteTaken := rx = true ∧ s.outq.length < s.cfg.outDepth ∧ ¬(cmd = true ∧ s.hostIn.head? = some 0x7000#16)
    let order : List Turn := if rst then [.rst] else (if cmd then [.host] else []) ++ (if byteTaken then [.link] else [])
    Host.Core.run Sys2Proof.core order.length { s with turns := order ++ s.turns } = clockCycle rst cmd rx s) ∧
  (∀ (s : State) (cmd rx : Bool),
    ∃ t, clockCycle true cmd rx s = .next t ∧ step { s with turns := .rst :: s.turns } = .next t ∧
      t.linkIn = s.linkIn ∧ t.hostIn = s.hostIn) ∧
  (∀ (s : State) (rx : Bool) (ws : List Cmd), s.hostIn = 0x7000#16 :: ws →
    ∃ t, clockCycle false true rx s = .next t ∧ exec .reset { s with hostIn := ws } = .next t ∧ t.linkIn = s.linkIn)

/-! ### Invariants and reset -/

/-- R40. Every element at its reset value, and the derived values that follow. -/
def Obligations.ResetStateAsSpecified : Prop :=
  let r := State.reset
  r.buf = [] ∧ r.outq = [] ∧ r.dropCount = 0#32 ∧ r.cksAcc = 0x00#8 ∧ r.cksAny = false ∧ r.illegal = false ∧
  r.mode = .scanning ∧ r.status = 0x00000002#32 ∧ r.outCount = 0#32 ∧ r.bufLen = 0#32 ∧ r.readReg 3#4 = some 0#32 ∧
  r.readReg 4#4 = some 0#32 ∧ r.headInfo = 0#32 ∧ r.rxReady = true ∧ r.irq = false

/-- The invariant holds of the machine right after reset. -/
def Obligations.InvariantHoldsAtReset : Prop := State.reset.Inv

/-- Every step keeps the invariant (R25, R26, R28, R29, R128, R136), from every state that has it. -/
def Obligations.StepKeepsInvariant : Prop :=
  ∀ s t : State, s.Inv → step s = .next t → t.Inv

/-! ### Streams -/

/-- R131. Chunk invariance: feeding a chunk whole and accepting its bytes one by one end in the same state: the same buffer,
the same drop count, the same frames in the same order. For the empty chunk this needs INV (the document's loop runs once
more); for every other chunk it holds from every start state. -/
def Obligations.ChunkInvariance : Prop :=
  ∀ (s : State) (chunk : List Byte), chunk ≠ [] ∨ bufferInv s.cfg.knownTypes s.buf →
    s.feed chunk = s.acceptBytes chunk

/-- R79, R125, R133. From an empty buffer with RX_READY 1, the bytes of any frame of a known type, offered in order, are
emitted as exactly that frame after exactly its 4 + length bytes, whatever payload and rsi are; nothing is dropped. -/
def Obligations.OfferedFrameIsEmittedWhole : Prop :=
  ∀ (s : State) (t len rsi : Byte) (payload more : List Byte) (ts : List Turn),
    s.afterReset = true → s.buf = [] → s.outq.length < s.cfg.outDepth → t ∈ s.cfg.knownTypes →
    payload.length = len.toNat →
    s.linkIn = 0xCC#8 :: t :: len :: (payload ++ [rsi]) ++ more →
    s.turns = List.replicate (4 + len.toNat) .link ++ ts →
    Host.Core.run Sys2Proof.core (4 + len.toNat) s = .next
      { s with outq := s.outq ++ [0xCC#8 :: t :: len :: (payload ++ [rsi])], linkIn := more, turns := ts }

/-- R129. Where 0xCC is no known type, a stray marker immediately before a frame is dropped without harm: the frame is
emitted whole and exactly one byte is counted. -/
def Obligations.StrayMarkerBeforeFrameIsDropped : Prop :=
  ∀ (s : State) (t len rsi : Byte) (payload more : List Byte) (ts : List Turn),
    s.afterReset = true → s.buf = [] → s.outq.length < s.cfg.outDepth → t ∈ s.cfg.knownTypes →
    0xCC#8 ∉ s.cfg.knownTypes → payload.length = len.toNat →
    s.linkIn = 0xCC#8 :: 0xCC#8 :: t :: len :: (payload ++ [rsi]) ++ more →
    s.turns = List.replicate (5 + len.toNat) .link ++ ts →
    Host.Core.run Sys2Proof.core (5 + len.toNat) s = .next
      { s with outq := s.outq ++ [0xCC#8 :: t :: len :: (payload ++ [rsi])], dropCount := s.dropCount + 1#32, linkIn := more,
               turns := ts }

/-- R139. From an empty buffer, a stream with no 0xCC byte emits no frame; the buffer holds its last min(2, k) bytes, and
every earlier one was dropped and counted. -/
def Obligations.StreamWithoutMarkerEmitsNothing : Prop :=
  ∀ (s : State) (stream more : List Byte) (ts : List Turn),
    s.afterReset = true → s.buf = [] → s.outq.length < s.cfg.outDepth → 0xCC#8 ∉ stream →
    s.linkIn = stream ++ more → s.turns = List.replicate stream.length .link ++ ts →
    Host.Core.run Sys2Proof.core stream.length s = .next
      { s with buf := stream.drop (stream.length - 2), dropCount := s.dropCount + BitVec.ofNat 32 (stream.length - 2),
               linkIn := more, turns := ts }

/-- R103, for a run of host commands: CKS_CLEAR and one CKS_BYTE per byte leave the checksum of the bytes in the accumulator,
REG_READ CKS_VALUE then answers it, and STATUS.CKS_OK is the document's verify (R104). Nothing else changes. -/
def Obligations.ChecksumRunComputesChecksum : Prop :=
  ∀ (s : State) (bytes : List Byte) (more : List Cmd) (ts : List Turn), s.afterReset = true →
    s.hostIn = 0x4000#16 :: (bytes.map fun d => 0x5000#16 ||| d.setWidth 16) ++ 0x3004#16 :: more →
    s.turns = List.replicate (bytes.length + 2) .host ++ ts →
    ∃ t, Host.Core.run Sys2Proof.core (bytes.length + 2) s = .next t ∧
      t = { s with cksAcc := checksum bytes, cksAny := !bytes.isEmpty, rsp := (checksum bytes).setWidth 32, hostIn := more,
                   turns := ts } ∧
      t.status.getLsbD 4 = verifyChecksum bytes

/-- R104. verify(s), the comparison of the last byte with the checksum of all others, holds exactly of the non-empty
sequences whose whole checksum is 0. -/
def Obligations.VerifyIsZeroChecksum : Prop :=
  ∀ bytes : List Byte, verifyChecksum bytes = true ↔ 1 ≤ bytes.length ∧ checksum bytes = 0x00#8

/-- R105. The checksum of a sequence followed by its checksum is 0, and no order of the bytes changes it. -/
def Obligations.ChecksumIsSelfInverseAndOrderFree : Prop :=
  (∀ p : List Byte, checksum (p ++ [checksum p]) = 0x00#8 ∧ verifyChecksum (p ++ [checksum p]) = true) ∧
  (∀ p q : List Byte, p.Perm q → checksum p = checksum q)

/-! ### Separation of the agents -/

/-- R106, R159. RX_BYTE never reads or writes the checksum unit or `illegal`: two states that differ only there take the
same step, and each keeps its own values. That the same holds of the response `rsp`, of which the rules do not speak, is the
model's choice (log entry 4). -/
def Obligations.RxByteIgnoresHostSide : Prop :=
  ∀ (s t : State) (d acc : Byte) (any ill : Bool) (v : Word), exec (.rxByte d) s = .next t →
    exec (.rxByte d) (s.withHostSide acc any ill v) = .next (t.withHostSide acc any ill v) ∧
    t = t.withHostSide s.cksAcc s.cksAny s.illegal s.rsp

/-- R159, R106. Host commands other than RESET never write `buf` or `drop_count`, take from `outq` only its head and only by
FRAME_POP, and change nothing the link agent offers. -/
def Obligations.HostCommandsLeaveDetectorState : Prop :=
  ∀ (i : Instr) (s t : State), isHostCommandButReset i = true → exec i s = .next t →
    t.buf = s.buf ∧ t.dropCount = s.dropCount ∧ (t.outq = s.outq ∨ i = .framePop ∧ t.outq = s.outq.drop 1) ∧
    t.linkIn = s.linkIn ∧ t.hostIn = s.hostIn ∧ t.turns = s.turns ∧ t.cfg = s.cfg

/-- R159, R41. Host commands other than RESET never read the bytes of `buf`: of the buffer they see its length and the mode
only. -/
def Obligations.HostCommandsNeverReadBufferBytes : Prop :=
  ∀ (i : Instr) (s t : State) (b : List Byte), isHostCommandButReset i = true →
    b.length = s.buf.length → modeOf s.cfg.knownTypes b = s.mode → exec i s = .next t →
    exec i { s with buf := b } = .next { t with buf := b }

/-- R41. "Two states that differ only in `buf`'s bytes can show the same registers and then emit different frames." -/
def Obligations.BufferBytesAreHiddenState : Prop :=
  ∃ (s : State) (b : List Byte) (d : Byte), s.Inv ∧ ({ s with buf := b } : State).Inv ∧
    (∀ addr : BitVec 4, s.readReg addr = ({ s with buf := b } : State).readReg addr) ∧
    (s.acceptByte d).outq ≠ (({ s with buf := b } : State).acceptByte d).outq
end

