-- ==== Sys2Proof/Laws/Decode.lean ====
section
/-! SUPPORT. Spec lemmas of the header fields, of recognition and of the rows. -/

namespace Sys2Proof

@[simp] theorem Hdr.marker_ofBytes (m t len : Byte) : Hdr.marker (Hdr.ofBytes m t len) = m := by
  ext i hi
  simp only [Hdr.marker, Hdr.ofBytes, BitVec.getElem_extractLsb', BitVec.getLsbD_append]
  rw [if_neg (by omega), if_neg (by omega), ← BitVec.getLsbD_eq_getElem hi]
  exact congrArg m.getLsbD (by omega)

@[simp] theorem Hdr.typeId_ofBytes (m t len : Byte) : Hdr.typeId (Hdr.ofBytes m t len) = t := by
  ext i hi
  simp only [Hdr.typeId, Hdr.ofBytes, BitVec.getElem_extractLsb', BitVec.getLsbD_append]
  rw [if_neg (by omega), if_pos (by omega), ← BitVec.getLsbD_eq_getElem hi]
  exact congrArg t.getLsbD (by omega)

@[simp] theorem Hdr.length_ofBytes (m t len : Byte) : Hdr.length (Hdr.ofBytes m t len) = len := by
  ext i hi
  simp only [Hdr.length, Hdr.ofBytes, BitVec.getElem_extractLsb', BitVec.getLsbD_append]
  rw [if_pos (by omega), ← BitVec.getLsbD_eq_getElem hi]
  exact congrArg len.getLsbD (by omega)

/-- A header word is its three bytes (30_encoding.md R77). -/
theorem Hdr.ofBytes_fields (h : Hdr) : Hdr.ofBytes (Hdr.marker h) (Hdr.typeId h) (Hdr.length h) = h := by
  ext i hi
  rw [← BitVec.getLsbD_eq_getElem hi, ← BitVec.getLsbD_eq_getElem hi]
  simp only [Hdr.marker, Hdr.typeId, Hdr.length, Hdr.ofBytes, BitVec.getLsbD_append, BitVec.getLsbD_extractLsb']
  by_cases h1 : i < 8
  · simp [h1]
  · by_cases h2 : i - 8 < 8
    · simp [h1, h2, show 8 + (i - 8) = i by omega]
    · simp [h1, h2, show i - 8 - 8 < 8 by omega, show 16 + (i - 8 - 8) = i by omega]

/-- Recognition in the words of 00_scope.md R15. -/
theorem recognised_iff (known : List Byte) (b0 b1 : Byte) :
    recognised known b0 b1 = true ↔ b0 = marker ∧ b1 ∈ known := by
  simp [recognised]

theorem frameSize_eq (len : Byte) : frameSize len = len.toNat + 4 := by
  simp only [frameSize, hdrLen, trailerLen]; omega

/-- A frame has 4 to 259 bytes (00_scope.md R8). -/
theorem frameSize_bounds (len : Byte) : 4 ≤ frameSize len ∧ frameSize len ≤ frameMax := by
  have := len.isLt
  rw [frameSize_eq, frameMax]; omega

theorem Row.selects_iff {n : Nat} (r : Row n) (w : BitVec n) : r.selects w = true ↔ w &&& r.mask = r.pattern := by
  simp [Row.selects]

/-- A recognised row selects exactly its marker and type, whatever the length byte is (30_encoding.md R78). -/
theorem headerRow_selects (ty m t len : Byte) :
    (headerRow ty).selects (Hdr.ofBytes m t len) = true ↔ m = 0xCC#8 ∧ t = ty := by
  have e : ∀ m t len : Byte, Hdr.ofBytes m t len &&& 0xFFFF00#24 = Hdr.ofBytes m t 0#8 := by
    intro m t len
    have h1 : ∀ x : Byte, x &&& 0xFF#8 = x := by decide
    have h0 : ∀ x : Byte, x &&& 0x00#8 = 0#8 := by decide
    rw [show (0xFFFF00#24 : BitVec 24) = (0xFF#8 ++ 0xFF#8 ++ 0x00#8 : BitVec 24) by rfl]
    simp only [Hdr.ofBytes]
    rw [BitVec.and_append, BitVec.and_append]
    simp only [h1, h0]
  have e2 : (headerRow ty).pattern = Hdr.ofBytes 0xCC#8 ty 0#8 := by
    simp only [headerRow, Hdr.ofBytes]
    revert ty
    decide
  rw [Row.selects_iff, show (headerRow ty).mask = 0xFFFF00#24 from rfl, e, e2]
  constructor
  · intro h
    exact ⟨by simpa using congrArg Hdr.marker h, by simpa using congrArg Hdr.typeId h⟩
  · rintro ⟨rfl, rfl⟩
    rfl

/-! ### The command rows as ranges of the word's value -/

theorem Cmd.toNat_and_highMask (w : Cmd) (k : Nat) :
    (w &&& BitVec.allOnes 16 <<< k).toNat = w.toNat / 2 ^ k * 2 ^ k := by
  have h : w &&& BitVec.allOnes 16 <<< k = (w >>> k) <<< k := by
    ext i hi
    simp only [BitVec.getElem_and, BitVec.getElem_shiftLeft, BitVec.getElem_allOnes, BitVec.getElem_ushiftRight]
    by_cases h : i < k
    · simp [h]
    · simp [h, show k + (i - k) = i by omega, BitVec.getLsbD_eq_getElem hi]
  have hw := w.isLt
  have hle := Nat.div_mul_le_self w.toNat (2 ^ k)
  rw [h, BitVec.toNat_shiftLeft, BitVec.toNat_ushiftRight, Nat.shiftRight_eq_div_pow, Nat.shiftLeft_eq]
  exact Nat.mod_eq_of_lt (by omega)

/-- A row whose mask is the upper `16 - k` bits selects the words whose upper bits are its pattern's. -/
theorem Row.selects_iff_div {r : Row 16} {k : Nat} (hm : r.mask = BitVec.allOnes 16 <<< k) {v : Nat}
    (hp : r.pattern.toNat = v * 2 ^ k) (w : Cmd) : r.selects w = true ↔ w.toNat / 2 ^ k = v := by
  rw [Row.selects_iff, hm, ← BitVec.toNat_inj, Cmd.toNat_and_highMask w k, hp]
  exact Nat.mul_left_inj (Nat.two_pow_pos k).ne'

theorem rowNop_selects (w : Cmd) : rowNop.selects w = true ↔ w.toNat / 2 ^ 0 = 0x0000 :=
  Row.selects_iff_div (k := 0) rfl rfl w

theorem rowFramePop_selects (w : Cmd) : rowFramePop.selects w = true ↔ w.toNat / 2 ^ 0 = 0x1000 :=
  Row.selects_iff_div (k := 0) rfl rfl w

theorem rowFrameRead_selects (w : Cmd) : rowFrameRead.selects w = true ↔ w.toNat / 2 ^ 9 = 0x10 :=
  Row.selects_iff_div (k := 9) rfl rfl w

theorem rowRegRead_selects (w : Cmd) : rowRegRead.selects w = true ↔ w.toNat / 2 ^ 4 = 0x300 :=
  Row.selects_iff_div (k := 4) rfl rfl w

theorem rowCksClear_selects (w : Cmd) : rowCksClear.selects w = true ↔ w.toNat / 2 ^ 0 = 0x4000 :=
  Row.selects_iff_div (k := 0) rfl rfl w

theorem rowCksByte_selects (w : Cmd) : rowCksByte.selects w = true ↔ w.toNat / 2 ^ 8 = 0x50 :=
  Row.selects_iff_div (k := 8) rfl rfl w

theorem rowClrErr_selects (w : Cmd) : rowClrErr.selects w = true ↔ w.toNat / 2 ^ 0 = 0x6000 :=
  Row.selects_iff_div (k := 0) rfl rfl w

theorem rowReset_selects (w : Cmd) : rowReset.selects w = true ↔ w.toNat / 2 ^ 0 = 0x7000 :=
  Row.selects_iff_div (k := 0) rfl rfl w

theorem Cmd.toNat_op (w : Cmd) : (Cmd.op w).toNat = w.toNat / 2 ^ 12 := by
  have := w.isLt
  simp only [Cmd.op, BitVec.extractLsb'_toNat, Nat.shiftRight_eq_div_pow]
  omega

theorem Cmd.toNat_idx (w : Cmd) : (Cmd.idx w).toNat = w.toNat % 2 ^ 9 := by
  simp [Cmd.idx, BitVec.extractLsb'_toNat]

theorem Cmd.toNat_addr (w : Cmd) : (Cmd.addr w).toNat = w.toNat % 2 ^ 4 := by
  simp [Cmd.addr, BitVec.extractLsb'_toNat]

theorem Cmd.toNat_data (w : Cmd) : (Cmd.data w).toNat = w.toNat % 2 ^ 8 := by
  simp [Cmd.data, BitVec.extractLsb'_toNat]

/-- The decoder as a case distinction on the word's value (30_encoding.md R74, R84 to R86). -/
theorem decodeCmd_eq (w : Cmd) :
    decodeCmd w =
      if w.toNat / 2 ^ 0 = 0x0000 then .instr .nop
      else if w.toNat / 2 ^ 0 = 0x1000 then .instr .framePop
      else if w.toNat / 2 ^ 9 = 0x10 then .instr (.frameRead (Cmd.idx w))
      else if w.toNat / 2 ^ 4 = 0x300 then
        if w.toNat % 2 ^ 4 ≤ 5 then .instr (.regRead (Cmd.addr w)) else .reject (.reservedRegister (Cmd.addr w))
      else if w.toNat / 2 ^ 0 = 0x4000 then .instr .cksClear
      else if w.toNat / 2 ^ 8 = 0x50 then .instr (.cksByte (Cmd.data w))
      else if w.toNat / 2 ^ 0 = 0x6000 then .instr .clrErr
      else if w.toNat / 2 ^ 0 = 0x7000 then .instr .reset
      else if 8 ≤ w.toNat / 2 ^ 12 then .reject (.reservedOpcode (Cmd.op w))
      else .reject (.reservedArgument w) := by
  simp only [decodeCmd, rowNop_selects, rowFramePop_selects, rowFrameRead_selects, rowRegRead_selects,
    rowCksClear_selects, rowCksByte_selects, rowClrErr_selects, rowReset_selects, Cmd.toNat_addr, Cmd.toNat_op]

end Sys2Proof
end

