-- ==== Sys2Proof/Laws/State.lean ====
section
/-! SUPPORT. One lemma per field per update of State, so that no later proof unfolds a record update. -/

namespace Sys2Proof.Machine

variable (s : State)

/-! ### respond -/

@[simp] theorem State.respond_cfg (v : Word) : (s.respond v).cfg = s.cfg := rfl
@[simp] theorem State.respond_buf (v : Word) : (s.respond v).buf = s.buf := rfl
@[simp] theorem State.respond_outq (v : Word) : (s.respond v).outq = s.outq := rfl
@[simp] theorem State.respond_dropCount (v : Word) : (s.respond v).dropCount = s.dropCount := rfl
@[simp] theorem State.respond_cksAcc (v : Word) : (s.respond v).cksAcc = s.cksAcc := rfl
@[simp] theorem State.respond_cksAny (v : Word) : (s.respond v).cksAny = s.cksAny := rfl
@[simp] theorem State.respond_illegal (v : Word) : (s.respond v).illegal = s.illegal := rfl
@[simp] theorem State.respond_rsp (v : Word) : (s.respond v).rsp = v := rfl
@[simp] theorem State.respond_afterReset (v : Word) : (s.respond v).afterReset = s.afterReset := rfl
@[simp] theorem State.respond_linkIn (v : Word) : (s.respond v).linkIn = s.linkIn := rfl
@[simp] theorem State.respond_hostIn (v : Word) : (s.respond v).hostIn = s.hostIn := rfl
@[simp] theorem State.respond_turns (v : Word) : (s.respond v).turns = s.turns := rfl

/-! ### raiseIllegal -/

@[simp] theorem State.raiseIllegal_cfg (c : IllegalCause) : (s.raiseIllegal c).cfg = s.cfg := rfl
@[simp] theorem State.raiseIllegal_buf (c : IllegalCause) : (s.raiseIllegal c).buf = s.buf := rfl
@[simp] theorem State.raiseIllegal_outq (c : IllegalCause) : (s.raiseIllegal c).outq = s.outq := rfl
@[simp] theorem State.raiseIllegal_dropCount (c : IllegalCause) : (s.raiseIllegal c).dropCount = s.dropCount := rfl
@[simp] theorem State.raiseIllegal_cksAcc (c : IllegalCause) : (s.raiseIllegal c).cksAcc = s.cksAcc := rfl
@[simp] theorem State.raiseIllegal_cksAny (c : IllegalCause) : (s.raiseIllegal c).cksAny = s.cksAny := rfl
@[simp] theorem State.raiseIllegal_illegal (c : IllegalCause) : (s.raiseIllegal c).illegal = true := rfl
@[simp] theorem State.raiseIllegal_rsp (c : IllegalCause) : (s.raiseIllegal c).rsp = 0x00000000#32 := rfl
@[simp] theorem State.raiseIllegal_afterReset (c : IllegalCause) : (s.raiseIllegal c).afterReset = s.afterReset := rfl
@[simp] theorem State.raiseIllegal_linkIn (c : IllegalCause) : (s.raiseIllegal c).linkIn = s.linkIn := rfl
@[simp] theorem State.raiseIllegal_hostIn (c : IllegalCause) : (s.raiseIllegal c).hostIn = s.hostIn := rfl
@[simp] theorem State.raiseIllegal_turns (c : IllegalCause) : (s.raiseIllegal c).turns = s.turns := rfl

/-! ### resetEvent -/

@[simp] theorem State.resetEvent_cfg : s.resetEvent.cfg = s.cfg := rfl
@[simp] theorem State.resetEvent_buf : s.resetEvent.buf = [] := rfl
@[simp] theorem State.resetEvent_outq : s.resetEvent.outq = [] := rfl
@[simp] theorem State.resetEvent_dropCount : s.resetEvent.dropCount = 0x00000000#32 := rfl
@[simp] theorem State.resetEvent_cksAcc : s.resetEvent.cksAcc = 0x00#8 := rfl
@[simp] theorem State.resetEvent_cksAny : s.resetEvent.cksAny = false := rfl
@[simp] theorem State.resetEvent_illegal : s.resetEvent.illegal = false := rfl
@[simp] theorem State.resetEvent_rsp : s.resetEvent.rsp = 0x00000000#32 := rfl
@[simp] theorem State.resetEvent_afterReset : s.resetEvent.afterReset = true := rfl
@[simp] theorem State.resetEvent_linkIn : s.resetEvent.linkIn = s.linkIn := rfl
@[simp] theorem State.resetEvent_hostIn : s.resetEvent.hostIn = s.hostIn := rfl
@[simp] theorem State.resetEvent_turns : s.resetEvent.turns = s.turns := rfl

/-! ### append -/

@[simp] theorem State.append_cfg (d : Byte) : (s.append d).cfg = s.cfg := rfl
@[simp] theorem State.append_buf (d : Byte) : (s.append d).buf = s.buf ++ [d] := rfl
@[simp] theorem State.append_outq (d : Byte) : (s.append d).outq = s.outq := rfl
@[simp] theorem State.append_dropCount (d : Byte) : (s.append d).dropCount = s.dropCount := rfl
@[simp] theorem State.append_cksAcc (d : Byte) : (s.append d).cksAcc = s.cksAcc := rfl
@[simp] theorem State.append_cksAny (d : Byte) : (s.append d).cksAny = s.cksAny := rfl
@[simp] theorem State.append_illegal (d : Byte) : (s.append d).illegal = s.illegal := rfl
@[simp] theorem State.append_rsp (d : Byte) : (s.append d).rsp = s.rsp := rfl
@[simp] theorem State.append_afterReset (d : Byte) : (s.append d).afterReset = s.afterReset := rfl
@[simp] theorem State.append_linkIn (d : Byte) : (s.append d).linkIn = s.linkIn := rfl
@[simp] theorem State.append_hostIn (d : Byte) : (s.append d).hostIn = s.hostIn := rfl
@[simp] theorem State.append_turns (d : Byte) : (s.append d).turns = s.turns := rfl

/-! ### extract -/

@[simp] theorem State.extract_cfg (n : Nat) : (s.extract n).cfg = s.cfg := rfl
@[simp] theorem State.extract_buf (n : Nat) : (s.extract n).buf = s.buf.drop n := rfl
@[simp] theorem State.extract_outq (n : Nat) : (s.extract n).outq = s.outq ++ [s.buf.take n] := rfl
@[simp] theorem State.extract_dropCount (n : Nat) : (s.extract n).dropCount = s.dropCount := rfl
@[simp] theorem State.extract_cksAcc (n : Nat) : (s.extract n).cksAcc = s.cksAcc := rfl
@[simp] theorem State.extract_cksAny (n : Nat) : (s.extract n).cksAny = s.cksAny := rfl
@[simp] theorem State.extract_illegal (n : Nat) : (s.extract n).illegal = s.illegal := rfl
@[simp] theorem State.extract_rsp (n : Nat) : (s.extract n).rsp = s.rsp := rfl
@[simp] theorem State.extract_afterReset (n : Nat) : (s.extract n).afterReset = s.afterReset := rfl
@[simp] theorem State.extract_linkIn (n : Nat) : (s.extract n).linkIn = s.linkIn := rfl
@[simp] theorem State.extract_hostIn (n : Nat) : (s.extract n).hostIn = s.hostIn := rfl
@[simp] theorem State.extract_turns (n : Nat) : (s.extract n).turns = s.turns := rfl

/-! ### resync -/

@[simp] theorem State.resync_cfg : s.resync.cfg = s.cfg := rfl
@[simp] theorem State.resync_buf : s.resync.buf = s.buf.drop 1 := rfl
@[simp] theorem State.resync_outq : s.resync.outq = s.outq := rfl
@[simp] theorem State.resync_dropCount : s.resync.dropCount = s.dropCount + 1 := rfl
@[simp] theorem State.resync_cksAcc : s.resync.cksAcc = s.cksAcc := rfl
@[simp] theorem State.resync_cksAny : s.resync.cksAny = s.cksAny := rfl
@[simp] theorem State.resync_illegal : s.resync.illegal = s.illegal := rfl
@[simp] theorem State.resync_rsp : s.resync.rsp = s.rsp := rfl
@[simp] theorem State.resync_afterReset : s.resync.afterReset = s.afterReset := rfl
@[simp] theorem State.resync_linkIn : s.resync.linkIn = s.linkIn := rfl
@[simp] theorem State.resync_hostIn : s.resync.hostIn = s.hostIn := rfl
@[simp] theorem State.resync_turns : s.resync.turns = s.turns := rfl

/-! ### withConfig -/

@[simp] theorem State.withConfig_cfg (c : Config) : (s.withConfig c).cfg = c := rfl
@[simp] theorem State.withConfig_buf (c : Config) : (s.withConfig c).buf = s.buf := rfl
@[simp] theorem State.withConfig_outq (c : Config) : (s.withConfig c).outq = s.outq := rfl
@[simp] theorem State.withConfig_dropCount (c : Config) : (s.withConfig c).dropCount = s.dropCount := rfl
@[simp] theorem State.withConfig_cksAcc (c : Config) : (s.withConfig c).cksAcc = s.cksAcc := rfl
@[simp] theorem State.withConfig_cksAny (c : Config) : (s.withConfig c).cksAny = s.cksAny := rfl
@[simp] theorem State.withConfig_illegal (c : Config) : (s.withConfig c).illegal = s.illegal := rfl
@[simp] theorem State.withConfig_rsp (c : Config) : (s.withConfig c).rsp = s.rsp := rfl
@[simp] theorem State.withConfig_afterReset (c : Config) : (s.withConfig c).afterReset = s.afterReset := rfl
@[simp] theorem State.withConfig_linkIn (c : Config) : (s.withConfig c).linkIn = s.linkIn := rfl
@[simp] theorem State.withConfig_hostIn (c : Config) : (s.withConfig c).hostIn = s.hostIn := rfl
@[simp] theorem State.withConfig_turns (c : Config) : (s.withConfig c).turns = s.turns := rfl

/-! ### withHostSide -/

@[simp] theorem State.withHostSide_cfg (acc : Byte) (any ill : Bool) (v : Word) : (s.withHostSide acc any ill v).cfg = s.cfg := rfl
@[simp] theorem State.withHostSide_buf (acc : Byte) (any ill : Bool) (v : Word) : (s.withHostSide acc any ill v).buf = s.buf := rfl
@[simp] theorem State.withHostSide_outq (acc : Byte) (any ill : Bool) (v : Word) : (s.withHostSide acc any ill v).outq = s.outq := rfl
@[simp] theorem State.withHostSide_dropCount (acc : Byte) (any ill : Bool) (v : Word) : (s.withHostSide acc any ill v).dropCount = s.dropCount := rfl
@[simp] theorem State.withHostSide_cksAcc (acc : Byte) (any ill : Bool) (v : Word) : (s.withHostSide acc any ill v).cksAcc = acc := rfl
@[simp] theorem State.withHostSide_cksAny (acc : Byte) (any ill : Bool) (v : Word) : (s.withHostSide acc any ill v).cksAny = any := rfl
@[simp] theorem State.withHostSide_illegal (acc : Byte) (any ill : Bool) (v : Word) : (s.withHostSide acc any ill v).illegal = ill := rfl
@[simp] theorem State.withHostSide_rsp (acc : Byte) (any ill : Bool) (v : Word) : (s.withHostSide acc any ill v).rsp = v := rfl
@[simp] theorem State.withHostSide_afterReset (acc : Byte) (any ill : Bool) (v : Word) : (s.withHostSide acc any ill v).afterReset = s.afterReset := rfl
@[simp] theorem State.withHostSide_linkIn (acc : Byte) (any ill : Bool) (v : Word) : (s.withHostSide acc any ill v).linkIn = s.linkIn := rfl
@[simp] theorem State.withHostSide_hostIn (acc : Byte) (any ill : Bool) (v : Word) : (s.withHostSide acc any ill v).hostIn = s.hostIn := rfl
@[simp] theorem State.withHostSide_turns (acc : Byte) (any ill : Bool) (v : Word) : (s.withHostSide acc any ill v).turns = s.turns := rfl

end Sys2Proof.Machine
end

