-- ==== Sys2Proof/Laws/Ops.lean ====
section
/-! SUPPORT. What each shared operation can do, said once. -/

namespace Sys2Proof.Machine

/-! ### Checksum -/

@[simp] theorem checksum_nil : checksum [] = 0x00#8 := rfl

theorem foldl_xor_eq (bytes : List Byte) (acc : Byte) :
    bytes.foldl (fun a b => a ^^^ b) acc = acc ^^^ checksum bytes := by
  induction bytes generalizing acc with
  | nil => simp
  | cons b rest ih =>
    have h : checksum (b :: rest) = b ^^^ checksum rest := by
      rw [checksum, List.foldl_cons, ih, BitVec.zero_xor]
    rw [List.foldl_cons, ih, h, BitVec.xor_assoc]

@[simp] theorem checksum_cons (b : Byte) (rest : List Byte) : checksum (b :: rest) = b ^^^ checksum rest := by
  rw [checksum, List.foldl_cons, foldl_xor_eq, BitVec.zero_xor]

@[simp] theorem checksum_append (p q : List Byte) : checksum (p ++ q) = checksum p ^^^ checksum q := by
  induction p with
  | nil => simp
  | cons b rest ih => rw [List.cons_append, checksum_cons, ih, checksum_cons, BitVec.xor_assoc]

/-! ### The front of the buffer -/

theorem State.front_cons {s : State} {m t len : Byte} {rest : List Byte} (h : s.buf = m :: t :: len :: rest) :
    s.front = some (Hdr.ofBytes m t len) := by
  simp [State.front, h]

theorem State.front_short {s : State} (h : s.buf.length < 3) : s.front = none := by
  unfold State.front
  split
  · next heq => rw [heq] at h; simp only [List.length_cons] at h; omega
  · rfl

/-! ### One iteration of the decision loop -/

theorem State.iteration_cons {s : State} {m t len : Byte} {rest : List Byte} (h : s.buf = m :: t :: len :: rest) :
    s.iteration =
      if recognised s.cfg.knownTypes m t then
        if frameSize len ≤ s.buf.length then some (s.extract (frameSize len)) else none
      else some s.resync := by
  simp [State.iteration, h]

theorem State.iteration_short {s : State} (h : s.buf.length < 3) : s.iteration = none := by
  unfold State.iteration
  split
  · next heq => rw [heq] at h; simp only [List.length_cons] at h; omega
  · rfl

/-- An iteration that goes on either extracts a complete recognised frame or drops one byte of noise (41_frame_detector.md
R125, R126). -/
theorem State.iteration_cases {s s' : State} (h : s.iteration = some s') :
    ∃ m t len rest, s.buf = m :: t :: len :: rest ∧
      ((recognised s.cfg.knownTypes m t = true ∧ frameSize len ≤ s.buf.length ∧ s' = s.extract (frameSize len)) ∨
       (recognised s.cfg.knownTypes m t = false ∧ s' = s.resync)) := by
  rcases hb : s.buf with _ | ⟨m, _ | ⟨t, _ | ⟨len, rest⟩⟩⟩
  · simp [State.iteration, hb] at h
  · simp [State.iteration, hb] at h
  · simp [State.iteration, hb] at h
  · refine ⟨m, t, len, rest, rfl, ?_⟩
    rw [State.iteration_cons hb] at h
    split at h
    · next hr =>
      split at h
      · next hl => exact .inl ⟨hr, hb ▸ hl, (Option.some.inj h).symm⟩
      · cases h
    · next hr => exact .inr ⟨by simpa using hr, (Option.some.inj h).symm⟩

/-- An iteration that exits found too few bytes, or a recognised header whose frame is not complete (R127). -/
theorem State.iteration_none {s : State} (h : s.iteration = none) :
    s.buf.length < 3 ∨
    ∃ m t len rest, s.buf = m :: t :: len :: rest ∧ recognised s.cfg.knownTypes m t = true ∧
      s.buf.length < frameSize len := by
  rcases hb : s.buf with _ | ⟨m, _ | ⟨t, _ | ⟨len, rest⟩⟩⟩
  · simp
  · simp
  · simp
  · refine .inr ⟨m, t, len, rest, rfl, ?_⟩
    rw [State.iteration_cons hb] at h
    split at h
    · next hr =>
      split at h
      · cases h
      · next hl => exact ⟨hr, by rw [hb] at hl; omega⟩
    · cases h

/-- Every iteration that goes on removes at least one byte. -/
theorem State.iteration_shrinks {s s' : State} (h : s.iteration = some s') : s'.buf.length < s.buf.length := by
  obtain ⟨m, t, len, rest, hb, ⟨-, hl, rfl⟩ | ⟨-, rfl⟩⟩ := State.iteration_cases h
  · have := (frameSize_bounds len).1
    simp only [State.extract_buf, List.length_drop]
    omega
  · simp [hb]

/-! ### The decision loop -/

theorem State.loopFor_of_iteration_none {s : State} (h : s.iteration = none) (fuel : Nat) : State.loopFor fuel s = s := by
  cases fuel <;> simp [State.loopFor, h]

/-- Fuel beyond the bytes held changes nothing: the loop has exited. -/
theorem State.loopFor_eq_of_enough {s : State} {a b : Nat} (ha : s.buf.length ≤ a) (hb : s.buf.length ≤ b) :
    State.loopFor a s = State.loopFor b s := by
  induction a generalizing s b with
  | zero =>
    have hn : s.iteration = none := State.iteration_short (by omega)
    rw [State.loopFor_of_iteration_none hn, State.loopFor_of_iteration_none hn]
  | succ a ih =>
    cases hi : s.iteration with
    | none => rw [State.loopFor_of_iteration_none hi, State.loopFor_of_iteration_none hi]
    | some t =>
      have hs := State.iteration_shrinks hi
      obtain ⟨k, rfl⟩ : ∃ k, b = k + 1 := ⟨b - 1, by omega⟩
      simp only [State.loopFor, hi]
      exact ih (by omega) (by omega)

theorem State.decisionLoop_of_none {s : State} (h : s.iteration = none) : s.decisionLoop = s :=
  State.loopFor_of_iteration_none h _

/-- The loop is its first iteration and then the loop again (41_frame_detector.md R122: `continue loop`). -/
theorem State.decisionLoop_of_some {s t : State} (h : s.iteration = some t) : s.decisionLoop = t.decisionLoop := by
  have hs := State.iteration_shrinks h
  obtain ⟨k, hk⟩ : ∃ k, s.buf.length = k + 1 := ⟨s.buf.length - 1, by omega⟩
  rw [State.decisionLoop, hk, State.loopFor, h]
  exact State.loopFor_eq_of_enough (by omega) (Nat.le_refl _)

/-- Induction along the loop: what holds where it exits and is carried back over each iteration holds of its result. -/
theorem State.decisionLoop_induction {P : State → State → Prop}
    (exit : ∀ s, s.iteration = none → P s s)
    (go : ∀ s t, s.iteration = some t → P t t.decisionLoop → P s t.decisionLoop) (s : State) : P s s.decisionLoop := by
  generalize hn : s.buf.length = n
  induction n using Nat.strong_induction_on generalizing s with
  | _ n ih =>
    cases hi : s.iteration with
    | none => rw [State.decisionLoop_of_none hi]; exact exit s hi
    | some t =>
      rw [State.decisionLoop_of_some hi]
      exact go s t hi (ih _ (by have := State.iteration_shrinks hi; omega) t rfl)

/-- The loop runs until it exits. -/
theorem State.decisionLoop_exits (s : State) : s.decisionLoop.iteration = none :=
  State.decisionLoop_induction (P := fun _ t => t.iteration = none) (fun _ h => h) (fun _ _ _ h => h) s

/-- The loop changes the buffer, the queue (at its tail) and the drop counter, and nothing else. -/
theorem State.decisionLoop_frame (s : State) :
    ∃ b fs n, s.decisionLoop = { s with buf := b, outq := s.outq ++ fs, dropCount := s.dropCount + BitVec.ofNat 32 n } := by
  refine State.decisionLoop_induction
    (P := fun s t => ∃ b fs n, t = { s with buf := b, outq := s.outq ++ fs, dropCount := s.dropCount + BitVec.ofNat 32 n })
    (fun s _ => ⟨s.buf, [], 0, by simp⟩) ?_ s
  rintro s t h ⟨b, fs, n, ht⟩
  obtain ⟨m, ty, len, rest, -, ⟨-, -, rfl⟩ | ⟨-, rfl⟩⟩ := State.iteration_cases h
  · exact ⟨b, s.buf.take (frameSize len) :: fs, n, by rw [ht]; simp [State.extract]⟩
  · refine ⟨b, fs, 1 + n, by rw [ht]; simp [State.resync, BitVec.ofNat_add, BitVec.add_assoc]⟩

/-- RX_BYTE's effect on everything but the buffer, the queue's tail and the drop counter: none. -/
theorem State.acceptByte_frame (s : State) (d : Byte) :
    ∃ b fs n, s.acceptByte d =
      { s with buf := b, outq := s.outq ++ fs, dropCount := s.dropCount + BitVec.ofNat 32 n } :=
  (s.append d).decisionLoop_frame

@[simp] theorem State.acceptBytes_nil (s : State) : s.acceptBytes [] = s := rfl

@[simp] theorem State.acceptBytes_cons (s : State) (d : Byte) (bytes : List Byte) :
    s.acceptBytes (d :: bytes) = (s.acceptByte d).acceptBytes bytes := rfl

theorem State.acceptBytes_append (s : State) (p q : List Byte) :
    s.acceptBytes (p ++ q) = (s.acceptBytes p).acceptBytes q := List.foldl_append

/-! ### What the loop reads

A change `f` of the state that keeps the known types and the buffer, and that extraction and resync pass through, passes
through the loop: so the loop reads nothing else. -/

theorem State.iteration_map {f : State → State} (hk : ∀ s, (f s).cfg.knownTypes = s.cfg.knownTypes)
    (hb : ∀ s, (f s).buf = s.buf) (he : ∀ s n, (f s).extract n = f (s.extract n)) (hr : ∀ s, (f s).resync = f s.resync)
    (s : State) : (f s).iteration = s.iteration.map f := by
  rcases h : s.buf with _ | ⟨m, _ | ⟨t, _ | ⟨len, rest⟩⟩⟩
  · rw [State.iteration_short (s := f s) (by rw [hb, h]; simp), State.iteration_short (by rw [h]; simp)]; rfl
  · rw [State.iteration_short (s := f s) (by rw [hb, h]; simp), State.iteration_short (by rw [h]; simp)]; rfl
  · rw [State.iteration_short (s := f s) (by rw [hb, h]; simp), State.iteration_short (by rw [h]; simp)]; rfl
  · rw [State.iteration_cons (s := f s) ((hb s).trans h), State.iteration_cons h, hk, hb, he, hr]
    split
    · split <;> rfl
    · rfl

theorem State.decisionLoop_map {f : State → State} (hk : ∀ s, (f s).cfg.knownTypes = s.cfg.knownTypes)
    (hb : ∀ s, (f s).buf = s.buf) (he : ∀ s n, (f s).extract n = f (s.extract n)) (hr : ∀ s, (f s).resync = f s.resync)
    (s : State) : (f s).decisionLoop = f s.decisionLoop := by
  refine State.decisionLoop_induction (P := fun s t => (f s).decisionLoop = f t) (fun s h => ?_) (fun s t h ih => ?_) s
  · exact State.decisionLoop_of_none (by rw [State.iteration_map hk hb he hr, h]; rfl)
  · rw [State.decisionLoop_of_some (t := f t) (by rw [State.iteration_map hk hb he hr, h]; rfl)]
    exact ih

theorem State.acceptByte_map {f : State → State} (hk : ∀ s, (f s).cfg.knownTypes = s.cfg.knownTypes)
    (hb : ∀ s, (f s).buf = s.buf) (he : ∀ s n, (f s).extract n = f (s.extract n)) (hr : ∀ s, (f s).resync = f s.resync)
    (ha : ∀ s d, (f s).append d = f (s.append d)) (s : State) (d : Byte) : (f s).acceptByte d = f (s.acceptByte d) := by
  rw [State.acceptByte, ha, State.decisionLoop_map hk hb he hr, State.acceptByte]

/-! ### Reads -/

/-- REG_READ has a value exactly at the six registers (10_state.md R32, R38). -/
theorem State.readReg_isSome_iff (s : State) (addr : BitVec 4) : (s.readReg addr).isSome = true ↔ addr.toNat ≤ 5 := by
  unfold State.readReg
  split <;> (simp_all; try omega)

/-- FRAME_VIEW has a byte exactly below the head frame's length (20_memory.md R51). -/
theorem State.readFrameView_cons {s : State} {f : Frame} {q : List Frame} (h : s.outq = f :: q) (idx : BitVec 9) :
    s.readFrameView idx = f[idx.toNat]? := by
  simp [State.readFrameView, h]

theorem State.readFrameView_nil {s : State} (h : s.outq = []) (idx : BitVec 9) : s.readFrameView idx = none := by
  simp [State.readFrameView, h]

/-! ### The invariant of the buffer -/

/-- INV says exactly that the loop has nothing to do (41_frame_detector.md R128). -/
theorem bufferInv_iff_iteration_none (s : State) : bufferInv s.cfg.knownTypes s.buf ↔ s.iteration = none := by
  rcases hb : s.buf with _ | ⟨m, _ | ⟨t, _ | ⟨len, rest⟩⟩⟩
  · simp [bufferInv, modeOf, State.iteration, hb]
  · simp [bufferInv, modeOf, State.iteration, hb]
  · simp [bufferInv, modeOf, State.iteration, hb]
  · rw [State.iteration_cons hb, hb]
    by_cases hr : recognised s.cfg.knownTypes m t = true
    · simp [bufferInv, modeOf, hr]
    · simp [bufferInv, modeOf, hr]

/-- After an accepted byte the buffer meets INV, whatever it was before (R128). -/
theorem State.acceptByte_bufferInv (s : State) (d : Byte) :
    bufferInv (s.acceptByte d).cfg.knownTypes (s.acceptByte d).buf :=
  (bufferInv_iff_iteration_none _).mpr (State.decisionLoop_exits _)

end Sys2Proof.Machine
end

