-- ==== Sys2Proof/Laws/PerInstr.lean ====
section
/-! SUPPORT. The family EncodesItsRow: the word the encoder gives an instruction is one its row of opcode_table.json
selects (30_encoding.md R74, R78). One lemma per constructor. -/

namespace Sys2Proof.Laws.EncodesItsRow

/-- The word of `i` has its row's format and its row's fixed bits. -/
def Statement (i : Instr) : Prop :=
  match i, encode i with
  | .rxByte d, .rx8 e => e = d
  | .nop, .cmd16 w => rowNop.selects w = true
  | .framePop, .cmd16 w => rowFramePop.selects w = true
  | .frameRead _, .cmd16 w => rowFrameRead.selects w = true
  | .regRead _, .cmd16 w => rowRegRead.selects w = true
  | .cksClear, .cmd16 w => rowCksClear.selects w = true
  | .cksByte _, .cmd16 w => rowCksByte.selects w = true
  | .clrErr, .cmd16 w => rowClrErr.selects w = true
  | .reset, .cmd16 w => rowReset.selects w = true
  | .hdrLog _, .hdr24 h => (headerRow 0x81#8).selects h = true
  | .hdrPingResp134 _, .hdr24 h => (headerRow 0x86#8).selects h = true
  | .hdrPingResp136 _, .hdr24 h => (headerRow 0x88#8).selects h = true
  | .hdrKnown typeId _, .hdr24 h => (headerRow typeId).selects h = true
  | .hdrNoise h, .hdr24 h' => h' = h
  | _, _ => False

theorem rxByte (d : Byte) : Statement (.rxByte d) := rfl

theorem nop : Statement .nop := by simp [Statement, encode, Row.selects, rowNop]

theorem framePop : Statement .framePop := by simp [Statement, encode, Row.selects, rowFramePop]

theorem frameRead (idx : BitVec 9) : Statement (.frameRead idx) := by
  revert idx
  simp only [Statement, encode, Row.selects, rowFrameRead]
  decide

theorem regRead (addr : BitVec 4) : Statement (.regRead addr) := by
  revert addr
  simp only [Statement, encode, Row.selects, rowRegRead]
  decide

theorem cksClear : Statement .cksClear := by simp [Statement, encode, Row.selects, rowCksClear]

theorem cksByte (d : Byte) : Statement (.cksByte d) := by
  revert d
  simp only [Statement, encode, Row.selects, rowCksByte]
  decide

theorem clrErr : Statement .clrErr := by simp [Statement, encode, Row.selects, rowClrErr]

theorem reset : Statement .reset := by simp [Statement, encode, Row.selects, rowReset]

theorem hdrLog (length : Byte) : Statement (.hdrLog length) := by
  revert length
  simp only [Statement, encode, Row.selects, headerRow, Hdr.ofBytes]
  decide

theorem hdrPingResp134 (length : Byte) : Statement (.hdrPingResp134 length) := by
  revert length
  simp only [Statement, encode, Row.selects, headerRow, Hdr.ofBytes]
  decide

theorem hdrPingResp136 (length : Byte) : Statement (.hdrPingResp136 length) := by
  revert length
  simp only [Statement, encode, Row.selects, headerRow, Hdr.ofBytes]
  decide

theorem hdrKnown (typeId length : Byte) : Statement (.hdrKnown typeId length) :=
  (headerRow_selects typeId 0xCC#8 typeId length).mpr ⟨rfl, rfl⟩

theorem hdrNoise (hdr : Hdr) : Statement (.hdrNoise hdr) := rfl

end Sys2Proof.Laws.EncodesItsRow
end

