-- ==== Sys2Proof/Laws/Step.lean ====
section
/-! SUPPORT. What each agent's turn can do, said once: inversion lemmas of the command decoder, of a command, of RX_BYTE and of
the turns. -/

namespace Sys2Proof.Machine

/-- A legal word is one of the eight commands, and names its operand (30_encoding.md R74, R84). -/
theorem decodeCmd_cases {w : Cmd} {i : Instr} (h : decodeCmd w = .instr i) :
    (w = 0x6000#16 ∧ i = .clrErr) ∨ (w = 0x7000#16 ∧ i = .reset) ∨ (w = 0x1000#16 ∧ i = .framePop) ∨ i = .nop ∨
    (i = .frameRead (Cmd.idx w) ∧ w.toNat / 512 = 16) ∨ (∃ a, i = .regRead a ∧ a.toNat ≤ 5) ∨ i = .cksClear ∨
    (∃ d, i = .cksByte d) := by
  rw [decodeCmd_eq] at h
  have e : ∀ k, k < 65536 → w.toNat / 2 ^ 0 = k → w = BitVec.ofNat 16 k := by
    intro k hk h
    apply BitVec.eq_of_toNat_eq
    simp only [pow_zero, Nat.div_one] at h
    rw [h, BitVec.toNat_ofNat]
    omega
  (repeat' split at h) <;> simp at h <;> subst h <;> simp
  · next _ h => exact e _ (by omega) h
  · next _ h => omega
  · next h => simpa [Cmd.toNat_addr] using h
  · next _ h => exact e _ (by omega) h
  · next _ h => exact e _ (by omega) h

/-- RESET is the word 0x7000 and no other (R74). -/
theorem decodeCmd_eq_reset_iff {w : Cmd} : decodeCmd w = .instr .reset ↔ w = 0x7000#16 := by
  constructor
  · intro h
    rcases decodeCmd_cases h with ⟨-, h⟩ | ⟨h, -⟩ | ⟨-, h⟩ | h | ⟨h, -⟩ | ⟨_, h, -⟩ | h | ⟨_, h⟩
    all_goals first | exact h | cases h
  · rintro rfl
    decide

/-- The host offers a reset event exactly where its next word is 0x7000. -/
theorem State.offersResetWord_iff {s : State} : s.offersResetWord = true ↔ s.hostIn.head? = some 0x7000#16 := by
  unfold State.offersResetWord
  split <;> simp [*, decodeCmd_eq_reset_iff]

/-- Everything a host command can do: raise Illegal, clear it, reset, pop, answer a value, or move the checksum unit. -/
theorem runCommand_cases {s t : State} {w : Cmd} (h : runCommand w s = .next t) :
    t = { s with illegal := true, rsp := 0#32 } ∨
    (w = 0x6000#16 ∧ t = { s with illegal := false, rsp := 0#32 }) ∨
    (w = 0x7000#16 ∧ t = s.resetEvent) ∨
    (w = 0x1000#16 ∧ ∃ f q, s.outq = f :: q ∧ t = { s with outq := q, rsp := 0#32 }) ∨
    (∃ v, t = { s with rsp := v }) ∨
    (∃ a b, (b = false → a = 0#8) ∧ t = { s with cksAcc := a, cksAny := b, rsp := 0#32 }) := by
  unfold runCommand at h
  cases hd : decodeCmd w with
  | reject r =>
    rw [hd] at h
    cases h
    exact .inl rfl
  | instr i =>
    simp only [hd] at h
    rcases decodeCmd_cases hd with ⟨rfl, rfl⟩ | ⟨rfl, rfl⟩ | ⟨rfl, rfl⟩ | rfl | ⟨rfl, -⟩ | ⟨a, rfl, -⟩ | rfl | ⟨d, rfl⟩
    · cases h
      exact .inr (.inl ⟨rfl, rfl⟩)
    · cases h
      exact .inr (.inr (.inl ⟨rfl, rfl⟩))
    · simp only [exec, execFramePop] at h
      split at h
      · cases h
        exact .inl rfl
      · next f q hq =>
        cases h
        exact .inr (.inr (.inr (.inl ⟨rfl, f, q, hq, rfl⟩)))
    · cases h
      exact .inr (.inr (.inr (.inr (.inl ⟨_, rfl⟩))))
    · simp only [exec, execFrameRead] at h
      split at h
      · cases h
        exact .inr (.inr (.inr (.inr (.inl ⟨_, rfl⟩))))
      · cases h
        exact .inl rfl
    · simp only [exec, execRegRead] at h
      split at h
      · cases h
        exact .inr (.inr (.inr (.inr (.inl ⟨_, rfl⟩))))
      · cases h
        exact .inl rfl
    · cases h
      exact .inr (.inr (.inr (.inr (.inr ⟨_, _, by simp, rfl⟩))))
    · cases h
      exact .inr (.inr (.inr (.inr (.inr ⟨_, true, by simp, rfl⟩))))

/-- Where the port is ready, RX_BYTE is the accepted byte's effect (41_frame_detector.md R120). -/
theorem exec_rxByte_ready {s : State} (d : Byte) (h : s.outq.length < s.cfg.outDepth) :
    exec (.rxByte d) s = .next (s.acceptByte d) := by
  simp [exec, execRxByte, State.rxReady, h]

/-- A byte that leaves fewer than three in the buffer is only appended (R128: APPEND). -/
theorem State.acceptByte_short {s : State} {d : Byte} (h : (s.buf ++ [d]).length < 3) :
    s.acceptByte d = { s with buf := s.buf ++ [d] } :=
  State.decisionLoop_of_none (State.iteration_short h)

/-- RX_BYTE touches the buffer, the queue's tail, the drop counter and the offered bytes, and nothing else. -/
theorem exec_rxByte_frame {s t : State} {d : Byte} (h : exec (.rxByte d) s = .next t) :
    ∃ b fs n li, t =
      { s with buf := b, outq := s.outq ++ fs, dropCount := s.dropCount + BitVec.ofNat 32 n, linkIn := li } := by
  simp only [exec, execRxByte] at h
  split at h
  · obtain ⟨b, fs, n, he⟩ := s.acceptByte_frame d
    cases h
    exact ⟨b, fs, n, s.linkIn, he⟩
  · cases h
    exact ⟨s.buf, [], 0, d :: s.linkIn, by simp⟩

theorem linkTurn_cases {s t : State} (h : linkTurn s = .next t) :
    (s.linkIn = [] ∧ t = s) ∨
    (∃ d ds, s.linkIn = d :: ds ∧ s.afterReset = true ∧ exec (.rxByte d) { s with linkIn := ds } = .next t) := by
  unfold linkTurn at h
  split at h
  · next h' =>
    cases h
    exact .inl ⟨h', rfl⟩
  · next d ds h' =>
    split at h
    · next ha => exact .inr ⟨d, ds, h', ha, h⟩
    · cases h

theorem hostTurn_cases {s t : State} (h : hostTurn s = .next t) :
    (s.hostIn = [] ∧ t = s) ∨
    (∃ w ws, s.hostIn = w :: ws ∧ (s.afterReset = true ∨ decodeCmd w = .instr .reset) ∧
      runCommand w { s with hostIn := ws } = .next t) := by
  unfold hostTurn at h
  split at h
  · next h' =>
    cases h
    exact .inl ⟨h', rfl⟩
  · next w ws h' =>
    split at h
    · next ha => exact .inr ⟨w, ws, h', by simpa using ha, h⟩
    · cases h

/-- INV in plain terms: fewer than three bytes, or a recognised header whose frame is not complete. -/
theorem bufferInv_iff {known b : List Byte} :
    bufferInv known b ↔
      b.length < 3 ∨
      ∃ m t len rest, b = m :: t :: len :: rest ∧ m = 0xCC#8 ∧ t ∈ known ∧ b.length < frameSize len := by
  rcases b with _ | ⟨m, _ | ⟨t, _ | ⟨len, rest⟩⟩⟩ <;> simp [bufferInv, modeOf]
  by_cases h : recognised known m t
  · have := (recognised_iff _ _ _).mp h
    simp_all [marker]
  · simp [h]
    intro h1 h2
    simp_all [recognised, marker]

theorem State.mode_eq_draining_iff {s : State} :
    s.mode = .draining ↔ ∃ t len rest, s.buf = 0xCC#8 :: t :: len :: rest ∧ t ∈ s.cfg.knownTypes := by
  unfold State.mode
  rcases s.buf with _ | ⟨m, _ | ⟨t, _ | ⟨len, rest⟩⟩⟩ <;> simp [modeOf]
  by_cases h : recognised s.cfg.knownTypes m t
  · have := (recognised_iff _ _ _).mp h
    simp_all [marker]
  · simp [h]
    intro h1
    simp_all [recognised, marker]

end Sys2Proof.Machine
end

