-- ==== Sys2Proof/Tests/Slice0.lean ====
section
/-! SUPPORT. Tests against the worked examples of the spec (95_test_vectors.md and the rules' own examples), and for every
obligation with hypotheses a witness that meets them. Every expected value is taken from the spec's text, or worked from it
by hand. -/

namespace Sys2Proof.Tests

open Sys2Proof.Machine

/-! ### Small states -/

/-- The state after reset with a given depth, buffer and queue. -/
def at' (depth : Nat) (buf : List Byte) (outq : List Frame) : State :=
  { State.reset with cfg := { Config.default with outDepth := depth }, buf := buf, outq := outq }

/-- The next state, where there is one. -/
def nextOf : Host.Outcome State Fault Refusal → Option State
  | .next t => some t
  | .fault _ => none
  | .refused _ => none

/-- PA of 95_test_vectors.md. -/
def pa : Frame := [0xCC#8, 0x86#8, 0x04#8, 0x00#8, 0x00#8, 0x2A#8, 0x31#8, 0x55#8]

/-- PB of 95_test_vectors.md. -/
def pb : Frame := [0xCC#8, 0x88#8, 0x04#8, 0x01#8, 0x02#8, 0x40#8, 0x41#8, 0x66#8]

/-- FD-12 after 258 bytes. -/
def longest : List Byte := 0xCC#8 :: 0x81#8 :: 0xFF#8 :: List.replicate 255 0xEE#8

/-! ### WellFormed refuses an ill-formed term of each kind -/

theorem test_wf_regRead_6 : (Instr.regRead 0x6#4).wellFormed Config.default.knownTypes = false := by decide

theorem test_wf_hdrLog_unknown : (Instr.hdrLog 0x00#8).wellFormed [0x86#8, 0x88#8] = false := by decide

theorem test_wf_hdr134_unknown : (Instr.hdrPingResp134 0x00#8).wellFormed [0x81#8, 0x88#8] = false := by decide

theorem test_wf_hdr136_unknown : (Instr.hdrPingResp136 0x00#8).wellFormed [0x81#8, 0x86#8] = false := by decide

theorem test_wf_hdrKnown :
    (Instr.hdrKnown 0xCC#8 0x00#8).wellFormed Config.default.knownTypes = false ∧
    (Instr.hdrKnown 0x81#8 0x00#8).wellFormed Config.default.knownTypes = false := by decide

theorem test_wf_noise_recognised : (Instr.hdrNoise 0xCC8104#24).wellFormed Config.default.knownTypes = false := by decide

/-! ### Decoding: words written bit by bit from R71, R74 and R78, one for every constructor, and the reserved ones of EN-01 -/

theorem test_decode_rxByte : decodeTableWord 8 0b11001100 = some (.rxByte 0xCC#8) := by decide

theorem test_decode_nop : decodeTableWord 16 0b0000000000000000 = some .nop := by decide

theorem test_decode_framePop : decodeTableWord 16 0b0001000000000000 = some .framePop := by decide

theorem test_decode_frameRead : decodeTableWord 16 0b0010000100000011 = some (.frameRead 259#9) := by decide

theorem test_decode_regRead : decodeTableWord 16 0b0011000000000101 = some (.regRead 5#4) := by decide

theorem test_decode_cksClear : decodeTableWord 16 0b0100000000000000 = some .cksClear := by decide

theorem test_decode_cksByte : decodeTableWord 16 0b0101000001001101 = some (.cksByte 0x4D#8) := by decide

theorem test_decode_clrErr : decodeTableWord 16 0b0110000000000000 = some .clrErr := by decide

theorem test_decode_reset : decodeTableWord 16 0b0111000000000000 = some .reset := by decide

theorem test_decode_hdrLog : decodeTableWord 24 0b110011001000000100011101 = some (.hdrLog 0x1D#8) := by decide

theorem test_decode_hdr134 : decodeTableWord 24 0b110011001000011000000100 = some (.hdrPingResp134 0x04#8) := by decide

theorem test_decode_hdr136 : decodeTableWord 24 0b110011001000100000000100 = some (.hdrPingResp136 0x04#8) := by decide

/-- EN-02: the ping request id is noise (R83). -/
theorem test_decode_noise_ping_request : decodeTableWord 24 0b110011001000011100000011 = some (.hdrNoise 0xCC8703#24) := by
  decide

/-- EN-02: bytes out of order are noise. -/
theorem test_decode_noise_order : decodeTableWord 24 0x81CC86 = some (.hdrNoise 0x81CC86#24) := by decide

/-- EN-01: every reserved word of the table. -/
theorem test_decode_reserved :
    [0x0001#16, 0x1001#16, 0x2200#16, 0x3006#16, 0x3010#16, 0x5100#16, 0x7001#16, 0x8000#16, 0xC3A5#16, 0xFFFF#16].map
      legalCommand = List.replicate 10 false := by decide

theorem test_reject_names :
    decodeCmd 0xC3A5#16 = .reject (.reservedOpcode 0xC#4) ∧ decodeCmd 0x1001#16 = .reject (.reservedArgument 0x1001#16) ∧
    decodeCmd 0x3006#16 = .reject (.reservedRegister 0x6#4) := by decide

/-- R129, R78: with 0xCC known, `CC CC` is a header, whose row is match 0xCCCC00, mask 0xFFFF00. -/
theorem test_decode_hdrKnown : decodeHeader [0xCC#8] 0b110011001100110000010000#24 = .instr (.hdrKnown 0xCC#8 0x10#8) := by
  decide

/-! ### One step of each instruction -/

/-- FD-03, last byte: EMIT. -/
theorem test_rxByte_emit :
    nextOf (exec (.rxByte 0x7F#8) (at' 4 [0xCC#8, 0x81#8, 0x00#8] [])) =
      some (at' 4 [] [[0xCC#8, 0x81#8, 0x00#8, 0x7F#8]]) := by decide

/-- FD-04, third byte: DROP of the stray marker. -/
theorem test_rxByte_drop :
    nextOf (exec (.rxByte 0x81#8) (at' 4 [0xCC#8, 0xCC#8] [])) =
      some { at' 4 [0xCC#8, 0x81#8] [] with dropCount := 1#32 } := by decide

/-- R151. -/
theorem test_nop : nextOf (exec .nop { at' 1 [] [] with rsp := 7#32 }) = some (at' 1 [] []) := by decide

/-- R152's example: `outq = [f1, f2]`; FRAME_POP gives `outq = [f2]`. -/
theorem test_framePop : nextOf (exec .framePop (at' 2 [0xCC#8] [pa, pb])) = some (at' 2 [0xCC#8] [pb]) := by decide

/-- HO-02. -/
theorem test_framePop_empty : (nextOf (exec .framePop (at' 1 [] []))).map State.status = some 0x00000022#32 := by decide

/-- R153's example. -/
theorem test_frameRead : (nextOf (exec (.frameRead 5#9) (at' 1 [] [pa]))).map State.rsp = some 0x0000002A#32 := by decide

/-- HO-03: FRAME_READ 0x1FF. -/
theorem test_frameRead_range :
    nextOf (exec (.frameRead 0x1FF#9) (at' 1 [] [pa])) = some { at' 1 [] [pa] with illegal := true } := by decide

/-- HO-03: HEAD_INFO. -/
theorem test_regRead_headInfo : (nextOf (exec (.regRead 5#4) (at' 1 [] [pa]))).map State.rsp = some 0x80550486#32 := by decide

/-- CK-13: STATUS = 0x0000002A. -/
theorem test_regRead_status :
    (nextOf (exec (.regRead 0#4) { at' 1 [] [] with cksAcc := 0x02#8, cksAny := true, illegal := true })).map State.rsp =
      some 0x0000002A#32 := by decide

/-- R101's example. -/
theorem test_cksClear : nextOf (exec .cksClear { at' 1 [] [] with cksAcc := 0x5E#8, cksAny := true }) = some (at' 1 [] []) := by
  decide

/-- R102's example: `cks_acc = 0x02`; CKS_BYTE 0x02 gives 0 and CKS_OK = 1 (STATUS 0x0000001A, CK-05). -/
theorem test_cksByte_verifies :
    (nextOf (exec (.cksByte 0x02#8) { at' 1 [] [] with cksAcc := 0x02#8, cksAny := true })).map State.status =
      some 0x0000001A#32 := by decide

/-- HO-04. -/
theorem test_clrErr : nextOf (exec .clrErr { at' 1 [] [] with illegal := true }) = some (at' 1 [] []) := by decide

/-- HO-05. -/
theorem test_reset :
    nextOf (exec .reset { at' 1 [0xCC#8, 0x81#8] [pa] with cksAcc := 0x5E#8, cksAny := true, dropCount := 3#32 }) =
      some (at' 1 [] []) := by decide

/-- FD-08's second frame, whole in the buffer: extracted behind the first. -/
theorem test_hdrPingResp136_extract :
    nextOf (exec (.hdrPingResp136 0x04#8) (at' 2 pb [pa])) = some (at' 2 [] [pa, pb]) := by decide

/-- FD-11: `CC 86 04` waits. -/
theorem test_hdrPingResp134_wait :
    nextOf (exec (.hdrPingResp134 0x04#8) (at' 1 [0xCC#8, 0x86#8, 0x04#8] [])) =
      some (at' 1 [0xCC#8, 0x86#8, 0x04#8] []) := by decide

/-- R125: the bytes after the frame stay, in order. -/
theorem test_hdrLog_extract :
    nextOf (exec (.hdrLog 0x00#8) (at' 1 [0xCC#8, 0x81#8, 0x00#8, 0x10#8, 0x41#8, 0x66#8] [])) =
      some (at' 1 [0x41#8, 0x66#8] [[0xCC#8, 0x81#8, 0x00#8, 0x10#8]]) := by decide

/-- FD-15's front: the frame of a known type 0xCC is extracted by the same rule. -/
theorem test_hdrKnown_extract :
    nextOf (exec (.hdrKnown 0xCC#8 0x00#8)
      { State.reset with cfg := ⟨[0x81#8, 0xCC#8], 1⟩, buf := [0xCC#8, 0xCC#8, 0x00#8, 0x10#8] }) =
      some { State.reset with cfg := ⟨[0x81#8, 0xCC#8], 1⟩, outq := [[0xCC#8, 0xCC#8, 0x00#8, 0x10#8]] } := by decide

/-- FD-05, third byte. -/
theorem test_hdrNoise_drop :
    nextOf (exec (.hdrNoise 0xCC8703#24) (at' 4 [0xCC#8, 0x87#8, 0x03#8] [])) =
      some { at' 4 [0x87#8, 0x03#8] [] with dropCount := 1#32 } := by decide

/-- R27: DROP_COUNT wraps. -/
theorem test_hdrNoise_wraps :
    (nextOf (exec (.hdrNoise 0x112233#24) { at' 1 [0x11#8, 0x22#8, 0x33#8] [] with dropCount := 0xFFFFFFFF#32 })).map
      State.dropCount = some 0#32 := by decide

/-! ### Derived values and shared operations -/

/-- R107 and CK-02 to CK-04. -/
theorem test_checksum_names :
    checksum [0x4D#8, 0x4F#8, 0x46#8, 0x46#8] = 0x02#8 ∧ checksum [0x4D#8, 0x46#8, 0x55#8, 0x4C#8, 0x4C#8] = 0x5E#8 ∧
    checksum [0x43#8, 0x41#8, 0x4C#8, 0x53#8, 0x41#8, 0x56#8, 0x45#8] = 0x4F#8 := by decide

/-- CK-05, CK-10 and D15: verify of MOFF with the right and a wrong check byte, and of nothing. -/
theorem test_verify :
    verifyChecksum [0x4D#8, 0x4F#8, 0x46#8, 0x46#8, 0x02#8] = true ∧
    verifyChecksum [0x4D#8, 0x4F#8, 0x46#8, 0x46#8, 0x03#8] = false ∧ verifyChecksum [] = false := by decide

set_option maxRecDepth 20000 in
/-- FD-12: DRAINING, BUF_LEN 258, STATUS 0x00000006; the 259th byte emits; HEAD_INFO 0x8099FF81. -/
theorem test_longest_frame :
    (at' 1 longest []).status = 0x00000006#32 ∧ (at' 1 longest []).bufLen = 258#32 ∧
    ((at' 1 longest []).acceptByte 0x99#8).buf = [] ∧
    ((at' 1 longest []).acceptByte 0x99#8).headInfo = 0x8099FF81#32 := by decide

/-- FD-15: with 0xCC known, `CC CC 00 10` is a frame. -/
theorem test_marker_as_type :
    (({ State.reset with cfg := ⟨[0x81#8, 0xCC#8], 1⟩, buf := [0xCC#8, 0xCC#8, 0x00#8] } : State).acceptByte 0x10#8).outq =
      [[0xCC#8, 0xCC#8, 0x00#8, 0x10#8]] := by decide

/-- FD-18: with the queue full the offered byte stays; after the pop it is accepted. -/
theorem test_stall :
    nextOf (step { at' 1 [] [pa] with linkIn := [0xCC#8], turns := [.link] }) = some { at' 1 [] [pa] with linkIn := [0xCC#8] } ∧
    nextOf (step { at' 1 [] [] with linkIn := [0xCC#8], turns := [.link] }) = some (at' 1 [0xCC#8] []) := by decide

/-- R62, R202: a byte that meets FRAME_POP is taken after it; one that meets RESET stays offered. -/
theorem test_same_cycle :
    nextOf (clockCycle false true true { at' 2 [] [pa] with hostIn := [0x1000#16], linkIn := [0xCC#8] }) =
      some (at' 2 [0xCC#8] []) ∧
    nextOf (clockCycle false true true { at' 2 [] [pa] with hostIn := [0x7000#16], linkIn := [0xCC#8] }) =
      some { at' 2 [] [] with linkIn := [0xCC#8] } := by decide

/-- R26: the fields of PA. -/
theorem test_frame_fields :
    Frame.payloadBytes pa = [0x00#8, 0x00#8, 0x2A#8, 0x31#8] ∧ Frame.rsiByte pa = 0x55#8 ∧ Frame.typeIdByte pa = 0x86#8 := by
  decide

/-- R182: the cause a word has in a state. -/
theorem test_causes :
    commandCause 0x8123#16 (at' 1 [] [pa]) = some .reservedEncoding ∧
    commandCause 0x1000#16 (at' 1 [] []) = some .popEmpty ∧ commandCause 0x2008#16 (at' 1 [] [pa]) = some .frameReadRange ∧
    commandCause 0x2007#16 (at' 1 [] [pa]) = none := by decide

/-- A placed word runs as the first transaction after reset, one of each format. -/
theorem test_placed_words :
    nextOf (step (State.reset.withFetchWord 8 0xCC)) = some { State.reset with buf := [0xCC#8] } ∧
    nextOf (step (State.reset.withFetchWord 16 0x504D)) = some { State.reset with cksAcc := 0x4D#8, cksAny := true } ∧
    nextOf (step (State.reset.withFetchWord 24 0xCC8104)) = some { State.reset with buf := [0xCC#8, 0x81#8, 0x04#8] } ∧
    nextOf (step (State.reset.withFetchWord 24 0xCC8703)) =
      some { State.reset with buf := [0x87#8, 0x03#8], dropCount := 1#32 } := by decide

/-! ### Witnesses: every obligation's hypotheses are met, each clause at the ends of its range -/

theorem witness_NopLeavesStateUnchanged :
    (0x0001 ≤ (0x0001#16).toNat ∧ (0x0001#16).toNat ≤ 0x0FFF) ∧ (0x0001 ≤ (0x0FFF#16).toNat ∧ (0x0FFF#16).toNat ≤ 0x0FFF) := by
  decide

theorem witness_FramePopRemovesHead :
    (at' 2 [] [pa, pb]).outq = pa :: [pb] ∧ (at' 2 [] [pa, pb]).outq.length ≤ (at' 2 [] [pa, pb]).cfg.outDepth ∧
    exec .framePop (at' 2 [] [pa, pb]) = .next (at' 2 [] [pb]) ∧ (at' 1 [] [pa]).outq = pa :: [] ∧
    exec .framePop (at' 1 [] [pa]) = .next (at' 1 [] []) ∧ (at' 1 [] []).outq = [] :=
  ⟨rfl, by decide, rfl, rfl, rfl, rfl⟩

theorem witness_FrameReadAnswersHeadByte :
    (at' 1 [] [pa]).outq = pa :: [] ∧ (0#9).toNat < List.length pa ∧ (7#9).toNat < List.length pa ∧
    List.length pa ≤ (8#9).toNat ∧ List.length pa ≤ (0x1FF#9).toNat ∧ (at' 1 [] []).outq = [] ∧
    Frame.WellFormed (at' 1 [] [pa]).cfg.knownTypes pa ∧ 259 ≤ (259#9).toNat ∧
    (at' 1 [] [[0xCC#8, 0x81#8, 0x00#8, 0x10#8]]).outq = (0xCC#8 :: 0x81#8 :: 0x00#8 :: ([] ++ [0x10#8])) :: [] ∧
    ([] : List Byte).length = (0x00#8).toNat ∧ 4 + (0x00#8).toNat ≤ (4#9).toNat := by decide

set_option maxRecDepth 20000 in
theorem witness_FrameViewIsWireOrder :
    ([] : List Byte).length = (0x00#8).toNat ∧ (List.replicate 255 0xEE#8).length = (0xFF#8).toNat ∧
    (at' 1 [] [longest ++ [0x99#8]]).outq = (0xCC#8 :: 0x81#8 :: 0xFF#8 :: (List.replicate 255 0xEE#8 ++ [0x99#8])) :: [] ∧
    0 < (List.replicate 255 0xEE#8).length ∧ 254 < (List.replicate 255 0xEE#8).length ∧ 4 + (0xFF#8).toNat ≤ (259#9).toNat := by
  decide

theorem witness_RegReadAnswersRegister :
    (0#4).toNat ≤ 5 ∧ (5#4).toNat ≤ 5 ∧ 6 ≤ (6#4).toNat ∧ 6 ≤ (15#4).toNat ∧
    ({ State.reset with illegal := true } : State).illegal = true := by decide

theorem witness_RegReadReservedAddressRaisesIllegal : 6 ≤ (6#4).toNat ∧ 6 ≤ (15#4).toNat := by decide

theorem witness_CksClearStartsChecksum :
    exec .cksClear { State.reset with cksAcc := 0x5E#8, cksAny := true } = .next State.reset ∧
    (0x4001 ≤ (0x4001#16).toNat ∧ (0x4FFF#16).toNat ≤ 0x4FFF) := ⟨rfl, by decide⟩

theorem witness_CksByteAccumulates :
    exec (.cksByte 0x4D#8) State.reset = .next { State.reset with cksAcc := 0x4D#8, cksAny := true } ∧
    (0x5100 ≤ (0x5100#16).toNat ∧ (0x5FFF#16).toNat ≤ 0x5FFF) := ⟨rfl, by decide⟩

theorem witness_ClrErrClearsIllegal :
    exec .clrErr { State.reset with illegal := true } = .next State.reset ∧
    (0x6001 ≤ (0x6001#16).toNat ∧ (0x6FFF#16).toNat ≤ 0x6FFF) := ⟨rfl, by decide⟩

theorem witness_ResetCommandClearsBlock :
    (at' 1 [0xCC#8] [pa]).cfg.Legal ∧ exec .reset (at' 1 [0xCC#8] [pa]) = .next (at' 1 [] []) := ⟨by decide, rfl⟩

theorem witness_OtherCommandsAnswerZero :
    (∀ idx, decodeCmd 0x1000#16 ≠ .instr (.frameRead idx)) ∧ (∀ addr, decodeCmd 0x1000#16 ≠ .instr (.regRead addr)) ∧
    (commandCause 0x2008#16 (at' 1 [] [pa])).isSome = true := by decide

theorem witness_StatusBitsAsSpecified :
    (let s : State := { State.reset with illegal := true, turns := [.rst] }
     step s = .next State.reset ∧ s.status.getLsbD 5 = true ∧ State.reset.status.getLsbD 5 = false) ∧
    (let s : State := { State.reset with illegal := true, turns := [.host], hostIn := [0x6000#16] }
     step s = .next State.reset ∧ s.status.getLsbD 5 = true) :=
  ⟨⟨rfl, by decide, by decide⟩, rfl, by decide⟩

set_option maxRecDepth 20000 in
theorem witness_RegisterContents :
    State.reset.outq.length < 2 ^ 32 ∧ State.reset.outq.length ≤ State.reset.cfg.outDepth ∧
    bufferInv (at' 1 longest []).cfg.knownTypes (at' 1 longest []).buf ∧ State.reset.outq = [] ∧
    (at' 1 [] [pa]).outq = (0xCC#8 :: 0x86#8 :: 0x04#8 :: ([0x00#8, 0x00#8, 0x2A#8, 0x31#8] ++ [0x55#8])) :: [] ∧
    [0x00#8, 0x00#8, 0x2A#8, 0x31#8].length = (0x04#8).toNat ∧ (1 ≤ (1#4).toNat ∧ (5#4).toNat ≤ 5) := by decide

theorem witness_IllegalIsSticky :
    (let s : State := { State.reset with illegal := true, turns := [.link], linkIn := [0xCC#8] }
     s.turns = .link :: [] ∧ s.illegal = true ∧ step s = .next { State.reset with illegal := true, buf := [0xCC#8] }) :=
  ⟨rfl, rfl, rfl⟩

/-- An RX_BYTE, the three causes, and a legal word that meets none of them in a state whose bit is already set. -/
theorem witness_IllegalOnlyForNamedCauses :
    exec (.rxByte 0xCC#8) State.reset = .next { State.reset with buf := [0xCC#8] } ∧
    legalCommand 0x8000#16 = false ∧ (at' 1 [] []).outq = [] ∧
    (∀ f q, (at' 1 [] [pa]).outq = f :: q → List.length f ≤ (8#9).toNat) ∧
    (let s : State := { at' 1 [] [pa] with illegal := true }
     ¬(legalCommand 0x0000#16 = false ∨ ((0x0000#16 : Cmd) = 0x1000#16 ∧ s.outq = []) ∨
       (∃ idx : BitVec 9, (0x0000#16 : Cmd) = 0x2000#16 ||| idx.setWidth 16 ∧ ∀ f q, s.outq = f :: q → List.length f ≤ idx.toNat)) ∧
     runCommand 0x0000#16 s = .next s ∧ s.illegal = true) := by
  refine ⟨rfl, by decide, rfl, ?_, ?_, rfl, rfl⟩
  · rintro f q h
    cases h
    decide
  · rintro (h | ⟨h, -⟩ | ⟨idx, h, -⟩)
    · exact absurd h (by decide)
    · exact absurd h (by decide)
    · revert idx
      decide

theorem witness_IrqIsFrameAvailable :
    (let s : State := { at' 1 [0xCC#8, 0x81#8, 0x00#8] [] with turns := [.link], linkIn := [0x7F#8] }
     let t := at' 1 [] [[0xCC#8, 0x81#8, 0x00#8, 0x7F#8]]
     step s = .next t ∧ s.irq = false ∧ t.irq = true) ∧
    (let s : State := { at' 1 [] [pa] with turns := [.host], hostIn := [0x1000#16] }
     step s = .next (at' 1 [] []) ∧ s.irq = true ∧ (at' 1 [] []).irq = false) :=
  ⟨⟨rfl, rfl, rfl⟩, rfl, rfl, rfl⟩

theorem witness_ReadsAreIdempotent :
    (5#4).toNat ≤ 5 ∧ exec (.regRead 5#4) (at' 1 [] [pa]) = .next { at' 1 [] [pa] with rsp := 0x80550486#32 } ∧
    (at' 1 [] [pa]).outq = pa :: [] ∧ (7#9).toNat < List.length pa ∧
    exec (.frameRead 7#9) (at' 1 [] [pa]) = .next { at' 1 [] [pa] with rsp := 0x55#32 } := ⟨by decide, rfl, rfl, by decide, rfl⟩

/-- A buffer under INV, and a ready port with one that breaks INV: a complete frame and a byte of noise, drained at once. -/
theorem witness_RxByteRunsDecisionLoop :
    (bufferInv [0x81#8] [0x11#8, 0x22#8] ∧ Drains [0x81#8] ([0x11#8, 0x22#8] ++ [0x33#8]) [] 1 [0x22#8, 0x33#8]) ∧
    (at' 1 [0xCC#8, 0x81#8, 0x00#8, 0x10#8, 0x07#8] []).outq.length <
      (at' 1 [0xCC#8, 0x81#8, 0x00#8, 0x10#8, 0x07#8] []).cfg.outDepth ∧
    Drains [0x81#8] [0xCC#8, 0x81#8, 0x00#8, 0x10#8, 0x07#8, 0xCC#8, 0x81#8] [[0xCC#8, 0x81#8, 0x00#8, 0x10#8]] 1
      [0xCC#8, 0x81#8] :=
  ⟨⟨by decide, .noise (by decide) (.tooFew (by decide))⟩, by decide, .complete (body := [0x10#8]) (by decide) rfl (.noise (by decide) (.tooFew (by decide)))⟩

set_option maxRecDepth 20000 in
/-- The four outcomes: APPEND of the second byte, EMIT of the 259th, HOLD of the third and of the 258th, DROP of the third. -/
theorem witness_RxByteHasOneOfFourOutcomes :
    (at' 1 [] []).outq.length < (at' 1 [] []).cfg.outDepth ∧
    bufferInv [0x81#8] [0xCC#8] ∧ ([0xCC#8] ++ [0x81#8] : List Byte).length < 3 ∧
    bufferInv [0x81#8] longest ∧ longest ++ [0x99#8] = 0xCC#8 :: 0x81#8 :: 0xFF#8 :: (List.replicate 255 0xEE#8 ++ [0x99#8]) ∧
    (longest ++ [0x99#8]).length = 3 + (0xFF#8).toNat + 1 ∧
    bufferInv [0x81#8] longest.dropLast ∧ (longest.dropLast ++ [0xEE#8]).length ≠ 3 + (0xFF#8).toNat + 1 ∧
    bufferInv [0x81#8] [0xCC#8, 0x81#8] ∧ ([0xCC#8, 0x81#8] ++ [0x00#8] : List Byte).length ≠ 3 + (0x00#8).toNat + 1 ∧
    bufferInv [0x81#8] [0xCC#8, 0xCC#8] ∧ ¬((0xCC#8 : Byte) = 0xCC#8 ∧ 0xCC#8 ∈ [0x81#8]) := by decide

theorem witness_ModeFollowsStateMachine :
    (at' 1 [0xCC#8] []).mode = .scanning ∧ exec (.rxByte 0x81#8) (at' 1 [0xCC#8] []) = .next (at' 1 [0xCC#8, 0x81#8] []) ∧
    bufferInv Config.default.knownTypes [0xCC#8, 0x81#8] ∧ (at' 1 [0xCC#8, 0x81#8] []).mode = .scanning ∧
    exec (.rxByte 0x00#8) (at' 1 [0xCC#8, 0x81#8] []) = .next (at' 1 [0xCC#8, 0x81#8, 0x00#8] []) ∧
    bufferInv Config.default.knownTypes [0xCC#8, 0x81#8, 0x00#8] ∧ (at' 1 [0xCC#8, 0x81#8, 0x00#8] []).mode = .draining ∧
    exec (.rxByte 0x7F#8) (at' 1 [0xCC#8, 0x81#8, 0x00#8] []) = .next (at' 1 [] [[0xCC#8, 0x81#8, 0x00#8, 0x7F#8]]) ∧
    isHostCommandButReset .framePop = true ∧ exec .framePop (at' 1 [0xCC#8] [pa]) = .next (at' 1 [0xCC#8] []) ∧
    exec .reset (at' 1 [0xCC#8, 0x81#8, 0x00#8] []) = .next (at' 1 [] []) ∧
    step { at' 1 [0xCC#8, 0x81#8, 0x00#8] [] with turns := [.rst] } = .next (at' 1 [] []) ∧
    ((0x1001#16 : Cmd) ≠ 0x7000#16 ∧
      runCommand 0x1001#16 (at' 1 [0xCC#8, 0x81#8, 0x00#8] []) = .next { at' 1 [0xCC#8, 0x81#8, 0x00#8] [] with illegal := true }) ∧
    (let s : State := { at' 1 [0xCC#8, 0x81#8, 0x00#8] [pa] with turns := [.link], linkIn := [0x7F#8] }
     step s = .next { s with turns := [] } ∧
     (∀ ts d ds, s.turns = .link :: ts → s.linkIn = d :: ds → s.cfg.outDepth ≤ s.outq.length) ∧
     (∀ ts ws, s.turns = .host :: ts → s.hostIn ≠ 0x7000#16 :: ws) ∧ (∀ ts, s.turns ≠ .rst :: ts)) :=
  ⟨rfl, rfl, by decide, rfl, rfl, by decide, rfl, rfl, rfl, rfl, rfl, rfl, ⟨by decide, rfl⟩,
    ⟨rfl, fun _ _ _ _ _ => by decide, fun _ _ h => (Turn.noConfusion (List.cons.inj h).1), fun _ h =>
      (Turn.noConfusion (List.cons.inj h).1)⟩⟩

set_option maxRecDepth 20000 in
theorem witness_BufferNeverOverflows : bufferInv Config.default.knownTypes longest ∧ longest.length = 258 := by decide

theorem witness_RxByteConservesBytes :
    (at' 1 [0xCC#8, 0xCC#8] []).outq.length < (at' 1 [0xCC#8, 0xCC#8] []).cfg.outDepth ∧
    exec (.rxByte 0x81#8) (at' 1 [0xCC#8, 0xCC#8] []) = .next { at' 1 [0xCC#8, 0x81#8] [] with dropCount := 1#32 } :=
  ⟨by decide, rfl⟩

theorem witness_RxByteStallsWhileQueueFull :
    (at' 1 [] [pa]).cfg.outDepth ≤ (at' 1 [] [pa]).outq.length ∧ (at' 1 [] [pa]).afterReset = true ∧
    ({ at' 1 [] [pa] with turns := [.link] } : State).turns = .link :: [] := by decide

theorem witness_FullQueueHoldsLinkForever :
    (let s : State := { at' 1 [] [pa] with turns := [.link, .link, .host] }
     s.afterReset = true ∧ s.cfg.outDepth ≤ s.outq.length ∧ s.turns = List.replicate 2 .link ++ [.host]) := by decide

set_option maxRecDepth 20000 in
theorem witness_RecognisedClassExtractsOrWaits :
    ((Instr.hdrLog 0x00#8, 0x81#8) = ((.hdrLog 0x00#8, 0x81#8) : Instr × Byte)) ∧ 0x81#8 ∈ Config.default.knownTypes ∧
    0x86#8 ∈ Config.default.knownTypes ∧ 0x88#8 ∈ Config.default.knownTypes ∧
    (let s : State := { State.reset with cfg := ⟨[0xCC#8], 1⟩, buf := [0xCC#8, 0xCC#8, 0x00#8, 0x10#8] }
     (0xCC#8 : Byte) ≠ 0x81#8 ∧ (0xCC#8 : Byte) ≠ 0x86#8 ∧ (0xCC#8 : Byte) ≠ 0x88#8 ∧ 0xCC#8 ∈ s.cfg.knownTypes ∧
     s.buf = 0xCC#8 :: 0xCC#8 :: 0x00#8 :: ([0x10#8] ++ [])) ∧
    [0x10#8].length = (0x00#8).toNat + 1 ∧
    (at' 1 [0xCC#8, 0x81#8, 0x00#8, 0x10#8, 0x07#8] []).buf = 0xCC#8 :: 0x81#8 :: 0x00#8 :: ([0x10#8] ++ [0x07#8]) ∧
    (at' 1 [0xCC#8, 0x81#8, 0x00#8] []).buf = 0xCC#8 :: 0x81#8 :: 0x00#8 :: [] ∧
    ([] : List Byte).length < (0x00#8).toNat + 1 ∧
    (at' 1 longest []).buf = 0xCC#8 :: 0x81#8 :: 0xFF#8 :: List.replicate 255 0xEE#8 ∧
    (List.replicate 255 0xEE#8).length < (0xFF#8).toNat + 1 := by decide

theorem witness_NoiseClassDropsOneByte :
    (at' 1 [0xCC#8, 0x87#8, 0x03#8] []).buf = 0xCC#8 :: 0x87#8 :: 0x03#8 :: [] ∧
    ¬((0xCC#8 : Byte) = 0xCC#8 ∧ 0x87#8 ∈ (at' 1 [0xCC#8, 0x87#8, 0x03#8] []).cfg.knownTypes) := by decide

theorem witness_UnselectedClassHasNoEffect :
    (at' 1 [0xCC#8, 0x81#8] []).buf.length < 3 ∧
    (at' 1 [0xCC#8, 0x86#8, 0x00#8] []).buf = 0xCC#8 :: 0x86#8 :: 0x00#8 :: [] ∧
    decodeHeader (at' 1 [0xCC#8, 0x86#8, 0x00#8] []).cfg.knownTypes (0xCC#8 ++ 0x86#8 ++ 0x00#8) ≠ .instr (.hdrLog 0x00#8) ∧
    decodeHeader (at' 1 [0xCC#8, 0x86#8, 0x00#8] []).cfg.knownTypes (0xCC#8 ++ 0x86#8 ++ 0x00#8) ≠
      .instr (.hdrKnown 0x86#8 0x00#8) := by decide

/-- A link turn for each class: a header found, and noise. -/
theorem witness_LinkTurnRunsDecodedHeaderClass :
    (let s : State := { at' 1 [0xCC#8, 0x81#8] [] with turns := [.link], linkIn := [0x00#8] }
     s.afterReset = true ∧ bufferInv s.cfg.knownTypes s.buf ∧ s.outq.length < s.cfg.outDepth ∧ s.turns = .link :: [] ∧
     s.linkIn = 0x00#8 :: [] ∧ s.buf ++ [0x00#8] = 0xCC#8 :: 0x81#8 :: 0x00#8 :: []) ∧
    decodeHeader Config.default.knownTypes (0xCC#8 ++ 0x81#8 ++ 0x00#8) = .instr (.hdrLog 0x00#8) ∧
    decodeHeader Config.default.knownTypes (0xCC#8 ++ 0x86#8 ++ 0x00#8) = .instr (.hdrPingResp134 0x00#8) ∧
    decodeHeader Config.default.knownTypes (0xCC#8 ++ 0x88#8 ++ 0x00#8) = .instr (.hdrPingResp136 0x00#8) ∧
    decodeHeader [0xCC#8] (0xCC#8 ++ 0xCC#8 ++ 0x00#8) = .instr (.hdrKnown 0xCC#8 0x00#8) ∧
    decodeHeader Config.default.knownTypes (0x00#8 ++ 0x81#8 ++ 0x00#8) = .instr (.hdrNoise 0x008100#24) := by decide

theorem witness_DecodeOfEncodeIsIdentity :
    [Instr.rxByte 0xFF#8, .nop, .framePop, .frameRead 0x1FF#9, .regRead 5#4, .cksClear, .cksByte 0xFF#8, .clrErr, .reset,
      .hdrLog 0xFF#8, .hdrPingResp134 0x00#8, .hdrPingResp136 0x00#8, .hdrNoise 0xCC8703#24].map
      (Instr.wellFormed Config.default.knownTypes) = List.replicate 13 true ∧
    (Instr.hdrKnown 0xCC#8 0xFF#8).wellFormed [0xCC#8] = true := by decide

theorem witness_EncodeOfDecodeIsIdentity :
    decode Config.default.knownTypes (.cmd16 0x21FF#16) = .instr (.frameRead 0x1FF#9) ∧
    decode Config.default.knownTypes (.hdr24 0xCC81FF#24) = .instr (.hdrLog 0xFF#8) ∧
    decode [0x00#8] (.hdr24 0xCC0004#24) = .instr (.hdrKnown 0x00#8 0x04#8) ∧
    decode [] (.rx8 0x00#8) = .instr (.rxByte 0x00#8) := by decide

theorem witness_ReservedWordOnlyRaisesIllegal :
    legalCommand 0x8000#16 = false ∧ legalCommand 0x0001#16 = false ∧ 6 ≤ (6#4).toNat ∧ 6 ≤ (15#4).toNat := by decide

theorem witness_StepRunsOfferedByte :
    (let s : State := { State.reset with turns := [.link], linkIn := [0xCC#8] }
     s.afterReset = true ∧ s.turns = .link :: [] ∧ s.linkIn = 0xCC#8 :: []) := by decide

theorem witness_StepRunsDecodedCommand :
    (let s : State := { State.reset with turns := [.host], hostIn := [0x1000#16] }
     s.afterReset = true ∧ s.turns = .host :: [] ∧ s.hostIn = 0x1000#16 :: []) ∧
    decodeCmd 0x1000#16 = .instr .framePop ∧ decodeCmd 0x1001#16 = .reject (.reservedArgument 0x1001#16) := by decide

theorem witness_StepRunsPlacedWord :
    decodeTableWord 8 0xFF = some (.rxByte 0xFF#8) ∧ decodeTableWord 16 0x7000 = some .reset ∧ State.reset.cfg.Legal ∧
    State.reset.cfg.knownTypes = Config.default.knownTypes ∧
    decodeTableWord 24 (0xCC#8 ++ 0x81#8 ++ 0xFF#8).toNat = some (.hdrLog 0xFF#8) := by decide

theorem witness_ResetPulseClearsBlock :
    (let s : State := { at' 1 [0xCC#8] [pa] with turns := [.rst] }
     s.turns = .rst :: [] ∧ s.cfg.Legal ∧ step s = .next (at' 1 [] [])) := ⟨rfl, by decide, rfl⟩

theorem witness_IdleStepHoldsState :
    State.reset.turns = [] ∧ State.reset.linkIn = [] ∧ State.reset.hostIn = [] ∧
    ({ State.reset with turns := [.link] } : State).turns = .link :: [] ∧
    ({ State.reset with turns := [.host] } : State).turns = .host :: [] := by decide

theorem witness_TransactionsBeforeFirstResetRefused :
    (let s : State := { State.reset with afterReset := false, turns := [.rst] }
     s.afterReset = false ∧ s.turns = .rst :: []) ∧
    (let s : State := { State.reset with afterReset := false, turns := [.link], linkIn := [0xCC#8] }
     s.afterReset = false ∧ s.turns = .link :: [] ∧ s.linkIn = 0xCC#8 :: []) ∧
    (let s : State := { State.reset with afterReset := false, turns := [.host], hostIn := [0x1000#16] }
     s.afterReset = false ∧ s.turns = .host :: [] ∧ s.hostIn = 0x1000#16 :: [] ∧ (0x1000#16 : Cmd) ≠ 0x7000#16) ∧
    (let s : State := { State.reset with afterReset := false, turns := [.host], hostIn := [0x7000#16] }
     s.afterReset = false ∧ s.turns = .host :: [] ∧ s.hostIn = 0x7000#16 :: []) := by decide

theorem witness_EveryStepAfterResetCompletes : State.reset.afterReset = true := by decide

theorem witness_ParametersNeverChange :
    step { State.reset with turns := [.rst] } = .next State.reset ∧ exec .nop State.reset = .next State.reset := ⟨rfl, rfl⟩

/-- A drop; an accepted byte that drops nothing; a byte stalled at a full queue; a pulse, RESET and another word. -/
theorem witness_DropCountChangesOnlyByResync :
    (let s : State := { at' 1 [0xCC#8] [] with turns := [.link], linkIn := [0x81#8] }
     s.Inv ∧ s.afterReset = true ∧ step s = .next (at' 1 [0xCC#8, 0x81#8] [])) ∧
    (let s : State := { at' 1 [0xCC#8, 0xCC#8] [pa] with turns := [.link], linkIn := [0x81#8] }
     s.Inv ∧ s.afterReset = true ∧ step s = .next { at' 1 [0xCC#8, 0xCC#8] [pa] with linkIn := [0x81#8] }) ∧
    (let s : State := { at' 1 [0xCC#8, 0xCC#8] [] with turns := [.link], linkIn := [0x81#8] }
     s.Inv ∧ s.afterReset = true ∧ step s = .next { at' 1 [0xCC#8, 0x81#8] [] with dropCount := 1#32 }) ∧
    (let s : State := { State.reset with dropCount := 9#32, turns := [.rst] }
     s.Inv ∧ step s = .next State.reset) ∧
    (let s : State := { State.reset with dropCount := 9#32, turns := [.host], hostIn := [0x7000#16] }
     s.Inv ∧ step s = .next State.reset) ∧
    (let s : State := { State.reset with dropCount := 9#32, turns := [.host], hostIn := [0x1000#16] }
     s.Inv ∧ s.hostIn.head? ≠ some 0x7000#16 ∧ step s = .next { State.reset with dropCount := 9#32, illegal := true }) :=
  ⟨⟨by decide, rfl, rfl⟩, ⟨by decide, rfl, rfl⟩, ⟨by decide, rfl, rfl⟩, ⟨by decide, rfl⟩, ⟨by decide, rfl⟩, by decide, by decide,
    rfl⟩

theorem witness_SameCycleEventsAreAnInterleaving :
    (at' 1 [] [pa]).afterReset = true ∧
    ({ at' 1 [] [] with hostIn := [0x7000#16], linkIn := [0xCC#8] } : State).hostIn = 0x7000#16 :: [] := by decide

set_option maxRecDepth 20000 in
theorem witness_StepKeepsInvariant :
    (let s : State := { at' 1 longest [] with turns := [.link], linkIn := [0x99#8] }
     s.Inv ∧ (nextOf (step s)).isSome = true) := by decide

theorem witness_ChunkInvariance :
    ([0xCC#8] : List Byte) ≠ [] ∧ bufferInv State.reset.cfg.knownTypes State.reset.buf := by decide

theorem witness_OfferedFrameIsEmittedWhole :
    (let s : State := { State.reset with linkIn := pa, turns := List.replicate 8 .link }
     s.afterReset = true ∧ s.buf = [] ∧ s.outq.length < s.cfg.outDepth ∧ 0x86#8 ∈ s.cfg.knownTypes ∧
     [0x00#8, 0x00#8, 0x2A#8, 0x31#8].length = (0x04#8).toNat ∧
     s.linkIn = 0xCC#8 :: 0x86#8 :: 0x04#8 :: ([0x00#8, 0x00#8, 0x2A#8, 0x31#8] ++ [0x55#8]) ++ [] ∧
     s.turns = List.replicate (4 + (0x04#8).toNat) .link ++ []) := by decide

theorem witness_StrayMarkerBeforeFrameIsDropped :
    (let s : State := { State.reset with linkIn := 0xCC#8 :: pa, turns := List.replicate 9 .link }
     s.afterReset = true ∧ s.buf = [] ∧ s.outq.length < s.cfg.outDepth ∧ 0x86#8 ∈ s.cfg.knownTypes ∧
     0xCC#8 ∉ s.cfg.knownTypes ∧ [0x00#8, 0x00#8, 0x2A#8, 0x31#8].length = (0x04#8).toNat ∧
     s.linkIn = 0xCC#8 :: 0xCC#8 :: 0x86#8 :: 0x04#8 :: ([0x00#8, 0x00#8, 0x2A#8, 0x31#8] ++ [0x55#8]) ++ [] ∧
     s.turns = List.replicate (5 + (0x04#8).toNat) .link ++ []) := by decide

/-- FD-07's stream. -/
theorem witness_StreamWithoutMarkerEmitsNothing :
    (let stream : List Byte := [0x11#8, 0x22#8, 0x33#8, 0x44#8, 0x55#8, 0x66#8, 0x77#8]
     let s : State := { State.reset with linkIn := stream, turns := List.replicate 7 .link }
     s.afterReset = true ∧ s.buf = [] ∧ s.outq.length < s.cfg.outDepth ∧ 0xCC#8 ∉ stream ∧ s.linkIn = stream ++ [] ∧
     s.turns = List.replicate stream.length .link ++ []) := by decide

theorem witness_ChecksumRunComputesChecksum :
    (let bytes : List Byte := [0x4D#8, 0x4F#8]
     let s : State := { State.reset with hostIn := [0x4000#16, 0x504D#16, 0x504F#16, 0x3004#16], turns := List.replicate 4 .host }
     s.afterReset = true ∧ s.hostIn = 0x4000#16 :: (bytes.map fun d => 0x5000#16 ||| d.setWidth 16) ++ 0x3004#16 :: [] ∧
     s.turns = List.replicate (bytes.length + 2) .host ++ []) := by decide

theorem witness_ChecksumIsSelfInverseAndOrderFree :
    ([0x4D#8, 0x4F#8, 0x46#8] : List Byte).Perm [0x46#8, 0x4F#8, 0x4D#8] := by decide

theorem witness_RxByteIgnoresHostSide :
    exec (.rxByte 0xCC#8) State.reset = .next { State.reset with buf := [0xCC#8] } := rfl

theorem witness_HostCommandsLeaveDetectorState :
    isHostCommandButReset .framePop = true ∧ exec .framePop (at' 1 [0xCC#8] [pa]) = .next (at' 1 [0xCC#8] []) := ⟨rfl, rfl⟩

theorem witness_HostCommandsNeverReadBufferBytes :
    isHostCommandButReset (.regRead 2#4) = true ∧ ([0x11#8, 0x22#8] : List Byte).length = (at' 1 [0xCC#8, 0x81#8] []).buf.length ∧
    modeOf (at' 1 [0xCC#8, 0x81#8] []).cfg.knownTypes [0x11#8, 0x22#8] = (at' 1 [0xCC#8, 0x81#8] []).mode ∧
    exec (.regRead 2#4) (at' 1 [0xCC#8, 0x81#8] []) = .next { at' 1 [0xCC#8, 0x81#8] [] with rsp := 2#32 } :=
  ⟨rfl, rfl, rfl, rfl⟩

end Sys2Proof.Tests
end

/-! ### OUT_DEPTH and the accepted bytes (00_scope.md R11)

A change of OUT_DEPTH keeps the known types and the buffer, and append, extraction and resync pass through it, so it passes
through every accepted byte. -/

namespace Sys2Proof.Machine

/-- `s` on a platform whose OUT_DEPTH is `depth`, with the same KNOWN_TYPES. -/
def State.withOutDepth (s : State) (depth : Nat) : State := s.withConfig { s.cfg with outDepth := depth }

/-- An accepted byte leaves the parameters as they are (10_state.md R42). -/
@[simp] theorem State.acceptByte_cfg (s : State) (d : Byte) : (s.acceptByte d).cfg = s.cfg := by
  obtain ⟨b, fs, n, h⟩ := s.acceptByte_frame d
  rw [h]

@[simp] theorem State.acceptBytes_cfg (s : State) (bytes : List Byte) : (s.acceptBytes bytes).cfg = s.cfg := by
  induction bytes generalizing s with
  | nil => rfl
  | cons d rest ih => rw [State.acceptBytes_cons, ih, State.acceptByte_cfg]

theorem State.acceptByte_withOutDepth (s : State) (depth : Nat) (d : Byte) :
    (s.withOutDepth depth).acceptByte d = (s.acceptByte d).withOutDepth depth :=
  State.acceptByte_map (f := (·.withOutDepth depth))
    (fun _ => rfl) (fun _ => rfl) (fun _ _ => rfl) (fun _ => rfl) (fun _ _ => rfl) s d

theorem State.acceptBytes_withOutDepth (s : State) (depth : Nat) (bytes : List Byte) :
    (s.withOutDepth depth).acceptBytes bytes = (s.acceptBytes bytes).withOutDepth depth := by
  induction bytes generalizing s with
  | nil => rfl
  | cons d rest ih => rw [State.acceptBytes_cons, State.acceptByte_withOutDepth, ih, State.acceptBytes_cons]

/-- Settles O25: a change of OUT_DEPTH passes through every accepted byte, and no accepted byte changes the parameters. -/
theorem outDepthNeverChangesFrames : Obligations.OutDepthNeverChangesFrames := by
  intro s depth bytes
  have h := s.acceptBytes_withOutDepth depth bytes
  rwa [State.withOutDepth, State.withOutDepth, State.acceptBytes_cfg] at h

end Sys2Proof.Machine

/-! ### The state between transactions (10_state.md)

Each agent's turn, inverted once, and the closed forms of an accepted byte; the statements about registers, parameters, the
sticky bit, the drop counter and the invariant are assembled from them. -/

namespace Sys2Proof.Machine

/-! #### One step -/

/-- A step is the turn of the agent that is next, and the turn is used up. -/
theorem step_cases {s t : State} (h : step s = .next t) :
    (s.turns = [] ∧ t = s) ∨
    (∃ ts, s.turns = .link :: ts ∧ linkTurn { s with turns := ts } = .next t) ∨
    (∃ ts, s.turns = .host :: ts ∧ hostTurn { s with turns := ts } = .next t) ∨
    (∃ ts, s.turns = .rst :: ts ∧ t = ({ s with turns := ts } : State).resetEvent) := by
  unfold step at h
  split at h
  · next hs =>
    cases h
    exact .inl ⟨hs, rfl⟩
  · next ts hs => exact .inr (.inl ⟨ts, hs, h⟩)
  · next ts hs => exact .inr (.inr (.inl ⟨ts, hs, h⟩))
  · next ts hs =>
    cases h
    exact .inr (.inr (.inr ⟨ts, hs, rfl⟩))

/-- A link turn touches the buffer, the queue's tail, the drop counter and the offered bytes, and nothing else. -/
theorem linkTurn_frame {s t : State} (h : linkTurn s = .next t) :
    ∃ b fs n li, t =
      { s with buf := b, outq := s.outq ++ fs, dropCount := s.dropCount + BitVec.ofNat 32 n, linkIn := li } := by
  obtain ⟨-, rfl⟩ | ⟨d, ds, -, -, hx⟩ := linkTurn_cases h
  · exact ⟨t.buf, [], 0, t.linkIn, by simp⟩
  · obtain ⟨b, fs, n, li, rfl⟩ := exec_rxByte_frame hx
    exact ⟨b, fs, n, li, rfl⟩

/-- RX_BYTE accepts its byte where the port is ready, and offers it again where it is not (20_memory.md R56). -/
theorem exec_rxByte_cases {s t : State} {d : Byte} (h : exec (.rxByte d) s = .next t) :
    (s.outq.length < s.cfg.outDepth ∧ t = s.acceptByte d) ∨
    (s.cfg.outDepth ≤ s.outq.length ∧ t = { s with linkIn := d :: s.linkIn }) := by
  by_cases hr : s.outq.length < s.cfg.outDepth
  · rw [exec_rxByte_ready d hr] at h
    cases h
    exact .inl ⟨hr, rfl⟩
  · simp only [exec, execRxByte, State.rxReady, hr, decide_false, Bool.false_eq_true, if_false] at h
    cases h
    exact .inr ⟨by omega, rfl⟩

/-! #### An accepted byte in closed form (41_frame_detector.md R128)

`State.acceptByte_short` is the outcome APPEND; here are EMIT, HOLD and DROP. -/

theorem State.acceptByte_emit {s : State} {d m ty len : Byte} {rest : List Byte} (hb : s.buf ++ [d] = m :: ty :: len :: rest)
    (hr : m = 0xCC#8 ∧ ty ∈ s.cfg.knownTypes) (hl : (s.buf ++ [d]).length = frameSize len) :
    s.acceptByte d = { s with outq := s.outq ++ [s.buf ++ [d]], buf := [] } := by
  have hrec : recognised s.cfg.knownTypes m ty = true := (recognised_iff _ _ _).mpr hr
  have hi : (s.append d).iteration = some ((s.append d).extract (frameSize len)) := by
    rw [State.iteration_cons (s := s.append d) hb, State.append_cfg, State.append_buf, if_pos hrec, if_pos hl.ge]
  have he : (s.append d).extract (frameSize len) = { s with outq := s.outq ++ [s.buf ++ [d]], buf := [] } := by
    rw [State.extract, State.append_buf, ← hl, List.take_length, List.drop_length]
    rfl
  rw [State.acceptByte, State.decisionLoop_of_some hi, he]
  exact State.decisionLoop_of_none (State.iteration_short (Nat.zero_lt_succ 2))

theorem State.acceptByte_hold {s : State} {d m ty len : Byte} {rest : List Byte} (hb : s.buf ++ [d] = m :: ty :: len :: rest)
    (hr : m = 0xCC#8 ∧ ty ∈ s.cfg.knownTypes) (hl : (s.buf ++ [d]).length < frameSize len) :
    s.acceptByte d = { s with buf := s.buf ++ [d] } := by
  have hrec : recognised s.cfg.knownTypes m ty = true := (recognised_iff _ _ _).mpr hr
  refine State.decisionLoop_of_none (s := s.append d) ?_
  rw [State.iteration_cons (s := s.append d) hb, State.append_cfg, State.append_buf, if_pos hrec, if_neg hl.not_ge]

theorem State.acceptByte_drop {s : State} {d m ty len : Byte} (hb : s.buf ++ [d] = [m, ty, len])
    (hr : ¬(m = 0xCC#8 ∧ ty ∈ s.cfg.knownTypes)) :
    s.acceptByte d = { s with buf := [ty, len], dropCount := s.dropCount + 1#32 } := by
  have hrec : ¬recognised s.cfg.knownTypes m ty = true := fun h => hr ((recognised_iff _ _ _).mp h)
  have hi : (s.append d).iteration = some (s.append d).resync := by
    rw [State.iteration_cons (s := s.append d) hb, State.append_cfg, if_neg hrec]
  have he : (s.append d).resync = { s with buf := [ty, len], dropCount := s.dropCount + 1#32 } := by
    rw [State.resync, State.append_buf, hb]
    rfl
  rw [State.acceptByte, State.decisionLoop_of_some hi, he]
  exact State.decisionLoop_of_none (State.iteration_short (Nat.lt_succ_self 2))

/-- Under INV one more byte leaves fewer than three, or a recognised header with no byte past its frame, or three bytes that are
no header. -/
theorem bufferInv_append {known b : List Byte} (h : bufferInv known b) (d : Byte) :
    (b ++ [d]).length < 3 ∨
    ∃ m ty len rest, b ++ [d] = m :: ty :: len :: rest ∧
      ((m = 0xCC#8 ∧ ty ∈ known) ∧ (b ++ [d]).length ≤ frameSize len ∨ ¬(m = 0xCC#8 ∧ ty ∈ known) ∧ rest = []) := by
  obtain hs | ⟨m, ty, len, rest, rfl, hm, hty, hl⟩ := bufferInv_iff.mp h
  · by_cases h3 : (b ++ [d]).length < 3
    · exact .inl h3
    · obtain ⟨m, ty, len, hb⟩ := List.length_eq_three.mp (show (b ++ [d]).length = 3 by simp at h3 ⊢; omega)
      have := (frameSize_bounds len).1
      refine .inr ⟨m, ty, len, [], hb, ?_⟩
      by_cases hr : m = 0xCC#8 ∧ ty ∈ known
      · exact .inl ⟨hr, by rw [hb, List.length_cons, List.length_cons, List.length_singleton]; omega⟩
      · exact .inr ⟨hr, rfl⟩
  · exact .inr ⟨m, ty, len, rest ++ [d], rfl, .inl ⟨⟨hm, hty⟩, by rw [List.length_append, List.length_singleton]; omega⟩⟩

/-- R128. Under INV an accepted byte is appended (APPEND or HOLD), completes a frame (EMIT), or costs one byte of a front that is
no header (DROP). -/
theorem State.acceptByte_cases {s : State} (h : bufferInv s.cfg.knownTypes s.buf) (d : Byte) :
    (s.acceptByte d = { s with buf := s.buf ++ [d] } ∧
      ∀ m ty len, s.buf ++ [d] = [m, ty, len] → m = 0xCC#8 ∧ ty ∈ s.cfg.knownTypes) ∨
    (Frame.WellFormed s.cfg.knownTypes (s.buf ++ [d]) ∧
      s.acceptByte d = { s with outq := s.outq ++ [s.buf ++ [d]], buf := [] }) ∨
    (∃ m ty len, s.buf ++ [d] = [m, ty, len] ∧ ¬(m = 0xCC#8 ∧ ty ∈ s.cfg.knownTypes) ∧
      s.acceptByte d = { s with buf := [ty, len], dropCount := s.dropCount + 1#32 }) := by
  obtain hs | ⟨m, ty, len, rest, hb, ⟨hr, hl⟩ | ⟨hr, rfl⟩⟩ := bufferInv_append h d
  · exact .inl ⟨State.acceptByte_short hs, fun m ty len hb => by simp [hb] at hs⟩
  · by_cases he : (s.buf ++ [d]).length = frameSize len
    · refine .inr (.inl ⟨?_, State.acceptByte_emit hb hr he⟩)
      rw [hb] at he ⊢
      exact ⟨hr.1, hr.2, he⟩
    · refine .inl ⟨State.acceptByte_hold hb hr (by omega), fun m' ty' len' hb' => ?_⟩
      obtain ⟨rfl, rfl, -⟩ : m = m' ∧ ty = ty' ∧ len = len' ∧ rest = [] := by simpa [hb] using hb'
      exact hr
  · exact .inr (.inr ⟨m, ty, len, hb, hr, State.acceptByte_drop hb hr⟩)

/-! #### The invariant -/

/-- The reset event establishes the invariant from any state with a legal OUT_DEPTH. -/
theorem State.resetEvent_inv {s : State} (h : s.cfg.Legal) : s.resetEvent.Inv :=
  ⟨h, fun _ => ⟨.inl ⟨rfl, Nat.zero_le 2⟩, by simp, Nat.zero_le _, fun _ => rfl⟩⟩

/-- An accepted byte keeps the invariant: it emits at most one frame, a well-formed one, into a queue with room (R26, R136). -/
theorem State.acceptByte_inv {s : State} (h : s.Inv) (ha : s.afterReset = true) (hr : s.outq.length < s.cfg.outDepth)
    (d : Byte) : (s.acceptByte d).Inv := by
  obtain ⟨hlegal, hinv⟩ := h
  obtain ⟨hbuf, hframes, hlen, hcks⟩ := hinv ha
  have hb := s.acceptByte_bufferInv d
  obtain ⟨he, -⟩ | ⟨hw, he⟩ | ⟨m, ty, len, -, -, he⟩ := State.acceptByte_cases hbuf d
  · rw [he] at hb ⊢
    exact ⟨hlegal, fun _ => ⟨hb, hframes, hlen, hcks⟩⟩
  · rw [he] at hb ⊢
    refine ⟨hlegal, fun _ => ⟨hb, fun f hf => ?_, ?_, hcks⟩⟩
    · obtain hf | hf := List.mem_append.mp hf
      · exact hframes f hf
      · exact List.mem_singleton.mp hf ▸ hw
    · simpa using hr
  · rw [he] at hb ⊢
    exact ⟨hlegal, fun _ => ⟨hb, hframes, hlen, hcks⟩⟩

theorem linkTurn_inv {s t : State} (h : s.Inv) (ht : linkTurn s = .next t) : t.Inv := by
  obtain ⟨-, rfl⟩ | ⟨d, ds, -, ha, hx⟩ := linkTurn_cases ht
  · exact h
  · obtain ⟨hr, rfl⟩ | ⟨-, rfl⟩ := exec_rxByte_cases hx
    · exact State.acceptByte_inv (s := { s with linkIn := ds }) h ha hr d
    · exact h

/-- A host command keeps the invariant: it only shortens the queue, and moves the checksum unit as R29 asks. -/
theorem runCommand_inv {s t : State} {w : Cmd} (h : s.Inv) (ht : runCommand w s = .next t) : t.Inv := by
  obtain rfl | ⟨-, rfl⟩ | ⟨-, rfl⟩ | ⟨-, f, q, hq, rfl⟩ | ⟨v, rfl⟩ | ⟨a, b, hab, rfl⟩ := runCommand_cases ht
  · exact h
  · exact h
  · exact State.resetEvent_inv h.1
  · refine ⟨h.1, fun ha => ?_⟩
    obtain ⟨hbuf, hframes, hlen, hcks⟩ := h.2 ha
    rw [hq] at hframes hlen
    exact ⟨hbuf, (List.forall_mem_cons.mp hframes).2, (Nat.le_succ _).trans hlen, hcks⟩
  · exact h
  · refine ⟨h.1, fun ha => ?_⟩
    obtain ⟨hbuf, hframes, hlen, -⟩ := h.2 ha
    exact ⟨hbuf, hframes, hlen, hab⟩

theorem hostTurn_inv {s t : State} (h : s.Inv) (ht : hostTurn s = .next t) : t.Inv := by
  obtain ⟨-, rfl⟩ | ⟨w, ws, -, -, hx⟩ := hostTurn_cases ht
  · exact h
  · exact runCommand_inv (s := { s with hostIn := ws }) h hx

/-- Settles O49, one kind of turn at a time. -/
theorem stepKeepsInvariant : Obligations.StepKeepsInvariant := by
  intro s t h ht
  obtain ⟨-, rfl⟩ | ⟨ts, -, hx⟩ | ⟨ts, -, hx⟩ | ⟨ts, -, rfl⟩ := step_cases ht
  · exact h
  · exact linkTurn_inv (s := { s with turns := ts }) h hx
  · exact hostTurn_inv (s := { s with turns := ts }) h hx
  · exact State.resetEvent_inv h.1

/-- Settles O48: the machine right after reset is what a reset event leaves. -/
theorem invariantHoldsAtReset : Obligations.InvariantHoldsAtReset :=
  State.resetEvent_inv (s := State.reset) (Nat.le_refl 1)

/-! #### Registers -/

theorem getLsbD_bitAt (b : Bool) {n : Nat} (hn : n < 32) (i : Nat) :
    (bitAt b n).getLsbD i = (decide (i = n) && b) := by
  rcases Nat.lt_trichotomy i n with h | rfl | h
  · simp [bitAt, h, h.ne]
  · simp [bitAt, hn]
  · simp [bitAt, h.ne', h.not_gt, show i - n ≠ 0 by omega, BitVec.getLsbD_ofBool]

/-- Bit `i` of STATUS is the flag at position `i`; every other bit is zero (10_state.md R30). -/
theorem State.getLsbD_status (s : State) (i : Nat) :
    s.status.getLsbD i =
      (decide (i = 0) && s.frameAvail || decide (i = 1) && s.rxReady || decide (i = 2) && s.draining ||
        decide (i = 3) && s.cksAny || decide (i = 4) && s.cksOk || decide (i = 5) && s.illegal) := by
  simp (disch := decide) only [State.status, BitVec.getLsbD_or, getLsbD_bitAt]

theorem State.getLsbD_status_five (s : State) : s.status.getLsbD 5 = s.illegal := by
  rw [State.getLsbD_status]
  simp

/-- A concatenation as a number: the high part counts in units of the low part's range. -/
theorem toNat_append_eq_add {m n : Nat} (x : BitVec m) (y : BitVec n) : (x ++ y).toNat = x.toNat * 2 ^ n + y.toNat := by
  rw [BitVec.toNat_append, ← Nat.shiftLeft_add_eq_or_of_lt y.isLt, Nat.shiftLeft_eq]

/-- HEAD_INFO as a number: bit 31, then rsi, length and type (10_state.md R37). -/
theorem State.toNat_headInfo_cons {s : State} {f : Frame} {q : List Frame} (h : s.outq = f :: q) :
    s.headInfo.toNat = 2 ^ 31 + (Frame.rsiByte f).toNat * 2 ^ 16 + (Frame.lengthByte f).toNat * 2 ^ 8 +
      (Frame.typeIdByte f).toNat := by
  simp only [State.headInfo, h, toNat_append_eq_add, BitVec.reduceToNat]
  omega

/-- The rsi byte of a frame laid out as 10_state.md R26 says is its last. -/
theorem Frame.rsiByte_layout {m ty len rsi : Byte} {payload : List Byte} (h : payload.length = len.toNat) :
    Frame.rsiByte (m :: ty :: len :: (payload ++ [rsi])) = rsi := by
  simp [Frame.rsiByte, Frame.lengthByte, ← h, Nat.add_comm 3]

theorem length_le_of_bufferInv {known b : List Byte} (h : bufferInv known b) : b.length ≤ 258 := by
  obtain h | ⟨_, _, len, _, -, -, -, h⟩ := bufferInv_iff.mp h
  · omega
  · have := (frameSize_bounds len).2
    rw [frameMax] at this
    omega

theorem State.toNat_outCount {s : State} (h : s.outq.length < 2 ^ 32) : s.outCount.toNat = s.outq.length := by
  rw [State.outCount, if_pos h, BitVec.toNat_ofNat, Nat.mod_eq_of_lt h]

theorem State.toNat_bufLen {s : State} (h : s.buf.length < 2 ^ 32) : s.bufLen.toNat = s.buf.length := by
  rw [State.bufLen, BitVec.toNat_ofNat, Nat.mod_eq_of_lt h]

/-- Settles O13, register by register. -/
theorem registerContents : Obligations.RegisterContents := by
  refine ⟨fun s h => ⟨s.outCount, rfl, State.toNat_outCount h, fun hd => ?_⟩, fun s h => ?_, fun _ => rfl,
    fun s => ⟨_, rfl, ?_⟩, fun s h => ?_, fun s ty len rsi payload q hp h => ⟨s.headInfo, rfl, ?_⟩, by decide⟩
  · exact (State.toNat_outCount h).trans_le hd
  · have hl := length_le_of_bufferInv h
    have hv : s.bufLen.toNat = s.buf.length := State.toNat_bufLen (by omega)
    exact ⟨s.bufLen, rfl, hv, hv.trans_le hl⟩
  · exact BitVec.toNat_setWidth_of_le (by decide)
  · simp [State.readReg, State.headInfo, h]
  · rw [State.toNat_headInfo_cons h, Frame.rsiByte_layout hp]
    rfl

/-- Settles O47: the state after reset is one concrete state. -/
theorem resetStateAsSpecified : Obligations.ResetStateAsSpecified := by
  unfold Obligations.ResetStateAsSpecified
  decide

/-! #### Parameters -/

@[simp] theorem State.extractOrWait_cfg (s : State) (len : Byte) : (s.extractOrWait len).cfg = s.cfg := by
  unfold State.extractOrWait
  split <;> rfl

/-- No instruction writes the parameters (10_state.md R42). -/
theorem exec_cfg {i : Instr} {s t : State} (h : exec i s = .next t) : t.cfg = s.cfg := by
  cases i with
  | rxByte d =>
    obtain ⟨_, _, _, _, rfl⟩ := exec_rxByte_frame h
    rfl
  | framePop =>
    simp only [exec, execFramePop] at h
    split at h <;> cases h <;> rfl
  | frameRead idx =>
    simp only [exec, execFrameRead] at h
    split at h <;> cases h <;> rfl
  | regRead addr =>
    simp only [exec, execRegRead] at h
    split at h <;> cases h <;> rfl
  | hdrLog len | hdrPingResp134 len | hdrPingResp136 len | hdrKnown ty len | hdrNoise hdr =>
    cases h
    split <;> simp
  | nop | cksClear | cksByte d | clrErr | reset =>
    cases h
    rfl

theorem runCommand_cfg {s t : State} {w : Cmd} (h : runCommand w s = .next t) : t.cfg = s.cfg := by
  unfold runCommand at h
  split at h
  · exact exec_cfg h
  · cases h
    rfl

/-- Settles O44: no instruction writes the parameters, and a turn is an instruction, a reserved word or a reset event. -/
theorem parametersNeverChange : Obligations.ParametersNeverChange := by
  refine ⟨fun s t h => ?_, fun i s t => exec_cfg⟩
  obtain ⟨-, rfl⟩ | ⟨ts, -, hx⟩ | ⟨ts, -, hx⟩ | ⟨ts, -, rfl⟩ := step_cases h
  · rfl
  · obtain ⟨_, _, _, _, rfl⟩ := linkTurn_frame hx
    rfl
  · obtain ⟨-, rfl⟩ | ⟨w, ws, -, -, hw⟩ := hostTurn_cases hx
    · rfl
    · exact runCommand_cfg (s := { s with turns := ts, hostIn := ws }) hw
  · rfl

/-! #### The sticky bit -/

/-- A host command that finds ILLEGAL set leaves it set, CLR_ERR and RESET aside (10_state.md R31). -/
theorem runCommand_illegal {s t : State} {w : Cmd} (h : runCommand w s = .next t) (hi : s.illegal = true) :
    t.illegal = true ∨ w = 0x6000#16 ∨ w = 0x7000#16 := by
  obtain rfl | ⟨rfl, -⟩ | ⟨rfl, -⟩ | ⟨-, f, q, -, rfl⟩ | ⟨v, rfl⟩ | ⟨a, b, -, rfl⟩ := runCommand_cases h
  · exact .inl rfl
  · exact .inr (.inl rfl)
  · exact .inr (.inr rfl)
  · exact .inl hi
  · exact .inl hi
  · exact .inl hi

/-- A step that finds ILLEGAL set leaves it set, unless it is a pulse of `rst`, CLR_ERR or RESET (R31). -/
theorem step_illegal {s t : State} (h : step s = .next t) (hi : s.illegal = true) :
    t.illegal = true ∨ (∃ ts, s.turns = .rst :: ts) ∨
    (∃ ts w ws, s.turns = .host :: ts ∧ s.hostIn = w :: ws ∧ (w = 0x6000#16 ∨ w = 0x7000#16)) := by
  obtain ⟨-, rfl⟩ | ⟨ts, -, hx⟩ | ⟨ts, hs, hx⟩ | ⟨ts, hs, -⟩ := step_cases h
  · exact .inl hi
  · obtain ⟨_, _, _, _, rfl⟩ := linkTurn_frame hx
    exact .inl hi
  · obtain ⟨-, rfl⟩ | ⟨w, ws, hw, -, hc⟩ := hostTurn_cases hx
    · exact .inl hi
    · exact (runCommand_illegal (s := { s with turns := ts, hostIn := ws }) hc hi).imp id
        fun hw' => .inr ⟨ts, w, ws, hs, hw, hw'⟩
  · exact .inr (.inl ⟨ts, hs⟩)

/-- A link turn neither sets nor clears ILLEGAL (R31). -/
theorem step_link_illegal {s t : State} {ts : List Turn} (hs : s.turns = .link :: ts) (h : step s = .next t) :
    t.illegal = s.illegal := by
  rw [step, hs] at h
  obtain ⟨_, _, _, _, rfl⟩ := linkTurn_frame h
  rfl

/-- Settles O14. -/
theorem illegalIsSticky : Obligations.IllegalIsSticky :=
  ⟨fun _ _ => rfl, fun _ _ => step_illegal, fun _ _ _ => step_link_illegal, rfl⟩

/-- Settles O12: the bits of STATUS one by one, and for the fall of bit 5 the sticky bit's own lemma. -/
theorem statusBitsAsSpecified : Obligations.StatusBitsAsSpecified := by
  refine ⟨fun s => ?_, by decide, fun s t h h1 h0 => ?_⟩
  · simp only [State.getLsbD_status]
    refine ⟨by simp [State.frameAvail], by simp [State.rxReady], by simp [State.draining, State.mode, beq_eq_decide],
      by simp, by simp [State.cksOk, beq_eq_decide], by simp, fun i hi => ?_⟩
    simp [show i ≠ 0 ∧ i ≠ 1 ∧ i ≠ 2 ∧ i ≠ 3 ∧ i ≠ 4 ∧ i ≠ 5 by omega]
  · rw [State.getLsbD_status_five] at h1 h0
    exact (step_illegal h h1).resolve_left (by simp [h0])

/-! #### The drop counter -/

/-- No host command but RESET writes the drop counter (10_state.md R27). -/
theorem runCommand_dropCount {s t : State} {w : Cmd} (h : runCommand w s = .next t) (hw : w ≠ 0x7000#16) :
    t.dropCount = s.dropCount := by
  obtain rfl | ⟨-, rfl⟩ | ⟨rfl, -⟩ | ⟨-, f, q, -, rfl⟩ | ⟨v, rfl⟩ | ⟨a, b, -, rfl⟩ := runCommand_cases h
  · rfl
  · rfl
  · exact absurd rfl hw
  · rfl
  · rfl
  · rfl

/-- A host turn that offers the word 0x7000 is a reset event, before the first reset too (70_reset_and_hazards.md R200). -/
theorem hostTurn_reset {s t : State} {ws : List Cmd} (hw : s.hostIn = 0x7000#16 :: ws) (h : hostTurn s = .next t) :
    t = ({ s with hostIn := ws } : State).resetEvent := by
  have hd : decodeCmd 0x7000#16 = .instr .reset := decodeCmd_eq_reset_iff.mpr rfl
  simp only [hostTurn, hw, hd, beq_self_eq_true, Bool.or_true, if_true, runCommand] at h
  cases h
  rfl

/-- Under INV a link turn drops a byte exactly where it accepts one that makes a front of three bytes which is no header, and
leaves the drop counter otherwise (R27, 41_frame_detector.md R126). -/
theorem linkTurn_dropCount {s t : State} (hinv : bufferInv s.cfg.knownTypes s.buf) (h : linkTurn s = .next t) :
    (∃ d ds m ty len, s.linkIn = d :: ds ∧ s.outq.length < s.cfg.outDepth ∧ s.buf ++ [d] = [m, ty, len] ∧
      ¬(m = 0xCC#8 ∧ ty ∈ s.cfg.knownTypes) ∧
      t = { s with linkIn := ds, buf := [ty, len], dropCount := s.dropCount + 1#32 }) ∨
    ((∀ d ds m ty len, s.linkIn = d :: ds → s.outq.length < s.cfg.outDepth → s.buf ++ [d] = [m, ty, len] →
      m = 0xCC#8 ∧ ty ∈ s.cfg.knownTypes) ∧ t.dropCount = s.dropCount) := by
  obtain ⟨hl, rfl⟩ | ⟨d, ds, hl, -, hx⟩ := linkTurn_cases h
  · exact .inr ⟨fun d ds m ty len hl' => by simp [hl] at hl', rfl⟩
  simp only [hl, List.cons.injEq]
  obtain ⟨hr, rfl⟩ | ⟨hr, rfl⟩ := exec_rxByte_cases hx
  · obtain ⟨he, hrec⟩ | ⟨hw, he⟩ | ⟨m, ty, len, hb, hrec, he⟩ :=
      State.acceptByte_cases (s := { s with linkIn := ds }) hinv d
    · refine .inr ⟨?_, by rw [he]⟩
      rintro _ _ m ty len ⟨rfl, rfl⟩ - hb
      exact hrec m ty len hb
    · refine .inr ⟨?_, by rw [he]⟩
      rintro _ _ m ty len ⟨rfl, rfl⟩ - hb
      obtain ⟨hm, hty, -⟩ : Frame.WellFormed s.cfg.knownTypes [m, ty, len] := hb ▸ hw
      exact ⟨hm, hty⟩
    · exact .inl ⟨d, ds, m, ty, len, ⟨rfl, rfl⟩, hr, hb, hrec, he⟩
  · exact .inr ⟨fun _ _ _ _ _ _ hr' => absurd hr' hr.not_gt, rfl⟩

/-- Settles O45, one kind of turn at a time. -/
theorem dropCountChangesOnlyByResync : Obligations.DropCountChangesOnlyByResync := by
  intro s t hinv ha h
  refine ⟨fun ts hs => ?_, fun ts hs => ?_, fun ts ws hs hw => ?_, ?_⟩
  · rw [step, hs] at h
    obtain ⟨d, ds, m, ty, len, hl, hr, hb, hrec, rfl⟩ | ⟨hno, hd⟩ :=
      linkTurn_dropCount (s := { s with turns := ts }) (hinv.2 ha).1 h
    · exact .inl ⟨d, ds, m, ty, len, hl, hr, hb, hrec, by rw [hb]; rfl, rfl, rfl, rfl⟩
    · exact .inr ⟨hno, hd⟩
  · rw [step, hs] at h
    cases h
    rfl
  · rw [step, hs] at h
    obtain rfl := hostTurn_reset (s := { s with turns := ts }) hw h
    rfl
  · rintro (hs | ⟨ts, hs, hw⟩)
    · rw [step, hs] at h
      cases h
      rfl
    · rw [step, hs] at h
      obtain ⟨-, rfl⟩ | ⟨w, ws, hw', -, hx⟩ := hostTurn_cases h
      · rfl
      · exact runCommand_dropCount (s := { s with turns := ts, hostIn := ws }) hx fun hw0 => hw ws (hw0 ▸ hw')

/-! #### Hidden state -/

/-- Settles O60: a header and its one payload byte, in two versions that differ in that byte; the next byte completes the
frame. -/
theorem bufferBytesAreHiddenState : Obligations.BufferBytesAreHiddenState := by
  refine ⟨{ State.reset with buf := [0xCC#8, 0x81#8, 0x01#8, 0x11#8] }, [0xCC#8, 0x81#8, 0x01#8, 0x22#8], 0x55#8, ?_⟩
  exact ⟨by decide, by decide, by decide, by decide⟩

end Sys2Proof.Machine

/-! ### The ports (20_memory.md)

What a link turn does with the byte on offer, what the two reads answer, and how the events of one clock cycle are ordered. -/

namespace Sys2Proof.Machine

/-! #### The RX port (20_memory.md R56) -/

/-- Settles O37: after the first reset a link turn with a byte on offer is that byte's RX_BYTE. -/
theorem stepRunsOfferedByte : Obligations.StepRunsOfferedByte := by
  intro s d ds ts ha hs hl
  simp only [step, hs, linkTurn, hl, ha, if_true, decodeRx]

/-- Where the port is not ready, RX_BYTE puts its byte back in front of those on offer (41_frame_detector.md R136). -/
theorem exec_rxByte_stalled {s : State} (d : Byte) (h : s.cfg.outDepth ≤ s.outq.length) :
    exec (.rxByte d) s = .next { s with linkIn := d :: s.linkIn } := by
  simp only [exec, execRxByte, State.rxReady, decide_eq_true_eq, if_neg h.not_gt]

/-- With no byte on offer a link turn only passes (60_exceptions.md R193). -/
theorem step_link_nil {s : State} {ts : List Turn} (hs : s.turns = .link :: ts) (hl : s.linkIn = []) :
    step s = .next { s with turns := ts } := by
  simp only [step, hs, linkTurn, hl]

/-- Settles O23: a stalled RX_BYTE puts back the byte that the link turn took. -/
theorem rxByteStallsWhileQueueFull : Obligations.RxByteStallsWhileQueueFull := by
  refine ⟨fun s d h => exec_rxByte_stalled d h, fun s ts ha h hs => ?_⟩
  cases hl : s.linkIn with
  | nil => rw [step_link_nil hs hl, hl]
  | cons d ds =>
    rw [stepRunsOfferedByte s d ds ts ha hs hl]
    exact exec_rxByte_stalled (s := { s with turns := ts, linkIn := ds }) d h

/-! #### The reads (20_memory.md R51, R58) -/

/-- FRAME_READ answers the byte that FRAME_VIEW has at its address (42_host_ops.md R153). -/
theorem exec_frameRead_some {s : State} {idx : BitVec 9} {b : Byte} (h : s.readFrameView idx = some b) :
    exec (.frameRead idx) s = .next (s.respond (b.setWidth 32)) := by
  simp only [exec, execFrameRead, h]

/-- FRAME_READ raises Illegal where FRAME_VIEW has no byte (42_host_ops.md R153). -/
theorem exec_frameRead_none {s : State} {idx : BitVec 9} (h : s.readFrameView idx = none) :
    exec (.frameRead idx) s = .next (s.raiseIllegal .frameReadRange) := by
  simp only [exec, execFrameRead, h]

/-- REG_READ answers what REGS holds at its address (42_host_ops.md R154). -/
theorem exec_regRead_some {s : State} {addr : BitVec 4} {v : Word} (h : s.readReg addr = some v) :
    exec (.regRead addr) s = .next (s.respond v) := by
  simp only [exec, execRegRead, h]

/-- No register shows the response. -/
@[simp] theorem State.readReg_respond (s : State) (v : Word) (addr : BitVec 4) :
    (s.respond v).readReg addr = s.readReg addr := rfl

/-- FRAME_VIEW does not show the response. -/
@[simp] theorem State.readFrameView_respond (s : State) (v : Word) (idx : BitVec 9) :
    (s.respond v).readFrameView idx = s.readFrameView idx := rfl

/-- An instruction that answers the same value in `s` and once it has answered it is idempotent. -/
theorem idempotent_of_respond {i : Instr} {s t : State} {v : Word} (hs : exec i s = .next (s.respond v))
    (hv : exec i (s.respond v) = .next ((s.respond v).respond v)) (h : exec i s = .next t) :
    t = { s with rsp := t.rsp } ∧ exec i t = .next t := by
  obtain rfl : s.respond v = t := by simpa [hs] using h
  exact ⟨rfl, hv⟩

/-- Settles O17: a valid read only responds, and neither view shows the response. -/
theorem readsAreIdempotent : Obligations.ReadsAreIdempotent := by
  rintro i s t (⟨addr, ha, rfl⟩ | ⟨idx, f, q, rfl, hq, hi⟩) h
  · obtain ⟨v, hv⟩ := Option.isSome_iff_exists.mp ((s.readReg_isSome_iff addr).mpr ha)
    exact idempotent_of_respond (exec_regRead_some hv) (exec_regRead_some (by rwa [State.readReg_respond])) h
  · have hv : s.readFrameView idx = some (f[idx.toNat]) := by
      rw [State.readFrameView_cons hq, List.getElem?_eq_getElem hi]
    exact idempotent_of_respond (exec_frameRead_some hv)
      (exec_frameRead_some (by rwa [State.readFrameView_respond])) h

/-! #### The address table of FRAME_VIEW (20_memory.md R52) -/

/-- The frame that 30_encoding.md R76 lays out: marker, type, length, payload, rsi. -/
def Frame.layout (ty len rsi : Byte) (payload : List Byte) : Frame := 0xCC#8 :: ty :: len :: (payload ++ [rsi])

theorem Frame.length_layout (ty len rsi : Byte) (payload : List Byte) :
    List.length (Frame.layout ty len rsi payload) = 4 + payload.length := by
  simp [Frame.layout, Nat.add_comm 4]

theorem Frame.getElem?_layout_payload (ty len rsi : Byte) {payload : List Byte} {i : Nat} (h : i < payload.length) :
    (Frame.layout ty len rsi payload)[3 + i]? = some payload[i] := by
  simp [Frame.layout, Nat.add_comm 3 i, List.getElem?_append_left h]

theorem Frame.getElem?_layout_rsi (ty len rsi : Byte) (payload : List Byte) :
    (Frame.layout ty len rsi payload)[3 + payload.length]? = some rsi := by
  simp [Frame.layout, Nat.add_comm 3]

/-- An address below 512 reads the head frame's byte at that offset. -/
theorem exec_frameRead_head {s : State} {f : Frame} {q : List Frame} {n : Nat} {b : Byte} (hq : s.outq = f :: q)
    (hn : n < 512) (hb : f[n]? = some b) :
    exec (.frameRead (BitVec.ofNat 9 n)) s = .next { s with rsp := b.setWidth 32 } :=
  exec_frameRead_some (by rw [State.readFrameView_cons hq, BitVec.toNat_ofNat, Nat.mod_eq_of_lt hn, hb])

/-- An address past the head frame raises Illegal. -/
theorem exec_frameRead_past {s : State} {f : Frame} {q : List Frame} {idx : BitVec 9} (hq : s.outq = f :: q)
    (h : List.length f ≤ idx.toNat) :
    exec (.frameRead idx) s = .next { s with illegal := true, rsp := 0#32 } :=
  exec_frameRead_none (by rw [State.readFrameView_cons hq, List.getElem?_eq_none h])

/-- Settles O4, row by row of the address table; the length is a byte, so every wire offset is below 512. -/
theorem frameViewIsWireOrder : Obligations.FrameViewIsWireOrder := by
  intro s ty len rsi payload q hp hq
  replace hq : s.outq = Frame.layout ty len rsi payload :: q := hq
  have hlen : len.toNat < 256 := len.isLt
  refine ⟨exec_frameRead_head hq (n := 0) (by omega) rfl, exec_frameRead_head hq (n := 1) (by omega) rfl,
    exec_frameRead_head hq (n := 2) (by omega) rfl, fun i hi => ?_, ?_, fun idx h => ?_⟩
  · exact exec_frameRead_head hq (by omega) (Frame.getElem?_layout_payload ty len rsi hi)
  · exact exec_frameRead_head hq (by omega) (hp ▸ Frame.getElem?_layout_rsi ty len rsi payload)
  · exact exec_frameRead_past hq (by rw [Frame.length_layout, hp]; exact h)

/-! #### The events of one clock cycle (20_memory.md R62) -/

/-- A command neither reads the turns nor writes them, and always answers a next state. -/
theorem runCommand_of_turns (w : Cmd) (s : State) :
    ∃ t : State, ∀ ts, runCommand w { s with turns := ts } = .next { t with turns := ts } := by
  unfold runCommand
  cases hd : decodeCmd w with
  | reject r => exact ⟨s.raiseIllegal .reservedEncoding, fun _ => rfl⟩
  | instr i =>
    obtain ⟨-, rfl⟩ | ⟨-, rfl⟩ | ⟨-, rfl⟩ | rfl | ⟨rfl, -⟩ | ⟨a, rfl, ha⟩ | rfl | ⟨d, rfl⟩ := decodeCmd_cases hd
    · exact ⟨{ s with illegal := false, rsp := 0#32 }, fun _ => rfl⟩
    · exact ⟨s.resetEvent, fun _ => rfl⟩
    · cases hq : s.outq with
      | nil => exact ⟨s.raiseIllegal .popEmpty, fun _ => by simp [exec, execFramePop, hq, State.raiseIllegal]⟩
      | cons f q => exact ⟨{ s with outq := q, rsp := 0#32 }, fun _ => by simp [exec, execFramePop, State.respond]⟩
    · exact ⟨s.respond 0#32, fun _ => rfl⟩
    · cases hv : s.readFrameView (Cmd.idx w) with
      | none => exact ⟨s.raiseIllegal .frameReadRange, fun ts => exec_frameRead_none (s := { s with turns := ts }) hv⟩
      | some b => exact ⟨s.respond (b.setWidth 32), fun ts => exec_frameRead_some (s := { s with turns := ts }) hv⟩
    · obtain ⟨v, hv⟩ := Option.isSome_iff_exists.mp ((s.readReg_isSome_iff a).mpr ha)
      exact ⟨s.respond v, fun ts => exec_regRead_some (s := { s with turns := ts }) hv⟩
    · exact ⟨{ s with cksAcc := 0#8, cksAny := false, rsp := 0#32 }, fun _ => rfl⟩
    · exact ⟨{ s with cksAcc := s.cksAcc ^^^ d, cksAny := true, rsp := 0#32 }, fun _ => rfl⟩

/-- After the first reset a host turn answers a next state, the same under any turns still to come. -/
theorem hostTurn_of_turns {s : State} (ha : s.afterReset = true) :
    ∃ t : State, ∀ ts, hostTurn { s with turns := ts } = .next { t with turns := ts } := by
  cases hw : s.hostIn with
  | nil => exact ⟨s, fun _ => by simp [hostTurn, hw]⟩
  | cons w ws =>
    obtain ⟨t, ht⟩ := runCommand_of_turns w { s with hostIn := ws }
    exact ⟨t, fun ts => by simpa [hostTurn, hw, ha] using ht ts⟩

/-- A run of one step is that step. -/
theorem run_one (s : State) : Host.Core.run Sys2Proof.core 1 s = step s := by
  have h : Sys2Proof.core.step s = step s := rfl
  simp only [Host.Core.run, h]
  cases step s with
  | next t => rfl
  | fault r => rfl
  | refused r => rfl

/-- A run whose first step answers `t` goes on from `t`. -/
theorem run_succ_of_next {s t : State} (k : Nat) (h : step s = .next t) :
    Host.Core.run Sys2Proof.core (k + 1) s = Host.Core.run Sys2Proof.core k t := by
  have hc : Sys2Proof.core.step s = .next t := h
  simp only [Host.Core.run, hc]

/-- A host turn that offers the RESET word runs RESET, before the first reset too (70_reset_and_hazards.md R200). -/
theorem hostTurn_resetWord {s : State} {ws : List Cmd} (hw : s.hostIn = 0x7000#16 :: ws) :
    hostTurn s = exec .reset { s with hostIn := ws } := by
  have hd : decodeCmd 0x7000#16 = .instr .reset := decodeCmd_eq_reset_iff.mpr rfl
  simp [hostTurn, hw, hd, runCommand]

/-- In the cycle of a RESET word only the host acts (R62, 70_reset_and_hazards.md R202). -/
theorem clockCycle_resetWord {s : State} (rx : Bool) (h : s.hostIn.head? = some 0x7000#16) :
    clockCycle false true rx s = hostTurn s := by
  simp [clockCycle, State.offersResetWord_iff.mpr h]

/-- In a cycle with no reset event and no command, a byte on a ready port is a link turn. -/
theorem clockCycle_link (s : State) (rx : Bool) :
    clockCycle false false rx s = if rx = true ∧ s.outq.length < s.cfg.outDepth then linkTurn s else .next s := by
  simp [clockCycle, State.rxReady]

/-- In a cycle with a command that is no RESET word, the command comes first, and the byte if the port was ready before it. -/
theorem clockCycle_host {s t : State} (rx : Bool) (hw : s.hostIn.head? ≠ some 0x7000#16) (h : hostTurn s = .next t) :
    clockCycle false true rx s = if rx = true ∧ s.outq.length < s.cfg.outDepth then linkTurn t else .next t := by
  have ho : s.offersResetWord = false := by simpa [← State.offersResetWord_iff] using hw
  simp [clockCycle, ho, h, State.rxReady]

/-- The turns of one clock cycle in the order of R62: `rst` alone, or the command, then the byte unless the port was not ready
before the command or the command is the RESET word. -/
def State.cycleOrder (s : State) (rst cmd rx : Bool) : List Turn :=
  if rst then [.rst]
  else (if cmd then [.host] else []) ++
    (if rx = true ∧ s.outq.length < s.cfg.outDepth ∧ ¬(cmd = true ∧ s.hostIn.head? = some 0x7000#16) then [.link] else [])

/-- The run of the cycle's turns, from the state in which they come next. -/
def State.runCycle (s : State) (rst cmd rx : Bool) : Host.Outcome State Fault Refusal :=
  Host.Core.run Sys2Proof.core (s.cycleOrder rst cmd rx).length { s with turns := s.cycleOrder rst cmd rx ++ s.turns }

theorem State.runCycle_link (s : State) (rx : Bool) : s.runCycle false false rx = clockCycle false false rx s := by
  rw [clockCycle_link, State.runCycle]
  by_cases hb : rx = true ∧ s.outq.length < s.cfg.outDepth
  · have ho : s.cycleOrder false false rx = [.link] := by simp [State.cycleOrder, hb]
    rw [ho, if_pos hb]
    exact run_one _
  · have ho : s.cycleOrder false false rx = [] := by simpa [State.cycleOrder] using hb
    rw [ho, if_neg hb]
    rfl

theorem State.runCycle_resetWord {s : State} (rx : Bool) (hw : s.hostIn.head? = some 0x7000#16) :
    s.runCycle false true rx = clockCycle false true rx s := by
  have ho : s.cycleOrder false true rx = [.host] := by simp [State.cycleOrder, hw]
  rw [clockCycle_resetWord rx hw, State.runCycle, ho]
  exact run_one _

theorem State.runCycle_host {s : State} (rx : Bool) (ha : s.afterReset = true) (hw : s.hostIn.head? ≠ some 0x7000#16) :
    s.runCycle false true rx = clockCycle false true rx s := by
  obtain ⟨t, ht⟩ := hostTurn_of_turns ha
  rw [clockCycle_host rx hw (ht s.turns), State.runCycle]
  by_cases hb : rx = true ∧ s.outq.length < s.cfg.outDepth
  · have ho : s.cycleOrder false true rx = [.host, .link] := by simp [State.cycleOrder, hb, hw]
    have hstep : step { s with turns := .host :: .link :: s.turns } = .next { t with turns := .link :: s.turns } := ht _
    rw [ho, if_pos hb]
    exact (run_succ_of_next 1 hstep).trans (run_one _)
  · have ho : s.cycleOrder false true rx = [.host] := by simpa [State.cycleOrder, hw] using hb
    rw [ho, if_neg hb]
    exact (run_one _).trans (ht s.turns)

/-- After the first reset the turns of a cycle have the effect of the cycle. -/
theorem State.runCycle_eq_clockCycle (s : State) (rst cmd rx : Bool) (ha : s.afterReset = true) :
    s.runCycle rst cmd rx = clockCycle rst cmd rx s := by
  cases rst with
  | true => exact run_one _
  | false =>
    cases cmd with
    | false => exact s.runCycle_link rx
    | true =>
      by_cases hw : s.hostIn.head? = some 0x7000#16
      · exact State.runCycle_resetWord rx hw
      · exact State.runCycle_host rx ha hw

/-- Settles O46: the cycle as a run of its turns, and the cycle of a reset event by the pulse and by the RESET word. -/
theorem sameCycleEventsAreAnInterleaving : Obligations.SameCycleEventsAreAnInterleaving := by
  refine ⟨State.runCycle_eq_clockCycle, fun s _ _ => ⟨s.resetEvent, rfl, rfl, rfl, rfl⟩, fun s rx ws hw => ?_⟩
  have hcycle : clockCycle false true rx s = exec .reset { s with hostIn := ws } :=
    (clockCycle_resetWord rx (by rw [hw, List.head?_cons])).trans (hostTurn_resetWord hw)
  exact ⟨_, hcycle, rfl, rfl⟩

end Sys2Proof.Machine

/-! ### The encoding (30_encoding.md)

The decoder of a command word and the encoder undo each other, and the decoder of a header word in the terms of R78; the
statements about the two formats are assembled from them. -/

namespace Sys2Proof.Machine

/-! #### The words of the encoder as values (30_encoding.md R73, R80) -/

theorem toNat_frameReadWord (idx : BitVec 9) : (0x2#4 ++ 0x0#3 ++ idx : Cmd).toNat = 0x2000 + idx.toNat := by
  rw [toNat_append_eq_add, Nat.add_right_cancel_iff]
  rfl

theorem toNat_regReadWord (addr : BitVec 4) : (0x3#4 ++ 0x00#8 ++ addr : Cmd).toNat = 0x3000 + addr.toNat := by
  rw [toNat_append_eq_add, Nat.add_right_cancel_iff]
  rfl

theorem toNat_cksByteWord (d : Byte) : (0x5#4 ++ 0x0#4 ++ d : Cmd).toNat = 0x5000 + d.toNat := by
  rw [toNat_append_eq_add, Nat.add_right_cancel_iff]
  rfl

/-! #### Command words -/

/-- A command word that decodes is the word of the instruction it decodes to, and that instruction is well-formed. -/
theorem encode_of_decodeCmd {w : Cmd} {i : Instr} (known : List Byte) (h : decodeCmd w = .instr i) :
    i.wellFormed known = true ∧ encode i = .cmd16 w := by
  have word {v : Cmd} (hv : v.toNat = w.toNat) : Encoded.cmd16 v = .cmd16 w := congrArg _ (BitVec.eq_of_toNat_eq hv)
  rw [decodeCmd_eq] at h
  (repeat' split at h) <;> cases h
  · next hw => exact ⟨rfl, word (by simpa using hw.symm)⟩
  · next hw => exact ⟨rfl, word (by simpa using hw.symm)⟩
  · next hw => exact ⟨rfl, word (by rw [toNat_frameReadWord, Cmd.toNat_idx]; omega)⟩
  · next hw ha =>
    exact ⟨by simpa [Instr.wellFormed, Cmd.toNat_addr] using ha, word (by rw [toNat_regReadWord, Cmd.toNat_addr]; omega)⟩
  · next hw => exact ⟨rfl, word (by simpa using hw.symm)⟩
  · next hw => exact ⟨rfl, word (by rw [toNat_cksByteWord, Cmd.toNat_data]; omega)⟩
  · next hw => exact ⟨rfl, word (by simpa using hw.symm)⟩
  · next hw => exact ⟨rfl, word (by simpa using hw.symm)⟩

theorem decodeCmd_frameReadWord (idx : BitVec 9) : decodeCmd (0x2#4 ++ 0x0#3 ++ idx) = .instr (.frameRead idx) := by
  have hw := toNat_frameReadWord idx
  have hi := idx.isLt
  have hf : Cmd.idx (0x2#4 ++ 0x0#3 ++ idx) = idx := BitVec.eq_of_toNat_eq (by rw [Cmd.toNat_idx, hw]; omega)
  rw [decodeCmd_eq, if_neg (by omega), if_neg (by omega), if_pos (by omega), hf]

theorem decodeCmd_regReadWord {addr : BitVec 4} (ha : addr.toNat ≤ 5) :
    decodeCmd (0x3#4 ++ 0x00#8 ++ addr) = .instr (.regRead addr) := by
  have hw := toNat_regReadWord addr
  have hf : Cmd.addr (0x3#4 ++ 0x00#8 ++ addr) = addr := BitVec.eq_of_toNat_eq (by rw [Cmd.toNat_addr, hw]; omega)
  rw [decodeCmd_eq, if_neg (by omega), if_neg (by omega), if_neg (by omega), if_pos (by omega), if_pos (by omega), hf]

theorem decodeCmd_cksByteWord (d : Byte) : decodeCmd (0x5#4 ++ 0x0#4 ++ d) = .instr (.cksByte d) := by
  have hw := toNat_cksByteWord d
  have hd := d.isLt
  have hf : Cmd.data (0x5#4 ++ 0x0#4 ++ d) = d := BitVec.eq_of_toNat_eq (by rw [Cmd.toNat_data, hw]; omega)
  rw [decodeCmd_eq, if_neg (by omega), if_neg (by omega), if_neg (by omega), if_neg (by omega), if_neg (by omega),
    if_pos (by omega), hf]

/-- A command word is legal exactly if it decodes to an instruction (R84). -/
theorem legalCommand_iff {w : Cmd} : legalCommand w = true ↔ ∃ i, decodeCmd w = .instr i := by
  unfold legalCommand
  cases decodeCmd w with
  | instr i => simp
  | reject r => simp

/-- Settles O32, row by row: each row's words are one op with its reserved bits zero. -/
theorem legalWordsAreTheUnreservedOnes : Obligations.LegalWordsAreTheUnreservedOnes := by
  intro w op arg
  have hop : op = w.toNat / 2 ^ 12 := rfl
  have harg : arg = w.toNat % 2 ^ 12 := rfl
  clear_value op arg
  rw [legalCommand_iff, decodeCmd_eq]
  (repeat' split)
  all_goals simp only [Decoded.instr.injEq, exists_eq', reduceCtorEq, exists_false, true_iff, false_iff]
  all_goals omega

/-- Every row of the command map fixes op (R74). -/
theorem op_of_row_selects {r : Row 16} (hr : r ∈ commandRows) {w : Cmd} (h : r.selects w = true) :
    r.pattern &&& 0xF000#16 = w &&& 0xF000#16 := by
  have hm : ∀ r ∈ commandRows, r.mask &&& 0xF000#16 = 0xF000#16 := by decide
  rw [← (r.selects_iff w).mp h, BitVec.and_assoc, hm r hr]

/-- Settles O33: the rows that a word selects have its op, and no two rows have the same op. -/
theorem atMostOneRowMatches : Obligations.AtMostOneRowMatches := by
  intro w
  have hops : (commandRows.map fun r => r.pattern &&& 0xF000#16).Nodup := by decide
  have hsel := hops.sublist ((List.filter_sublist (p := fun r => r.selects w)).map _)
  have hconst : ∀ r ∈ commandRows.filter fun r => r.selects w, r.pattern &&& 0xF000#16 = w &&& 0xF000#16 :=
    fun r hr => op_of_row_selects (List.mem_filter.mp hr).1 (List.mem_filter.mp hr).2
  rw [List.map_congr_left hconst, List.map_const', List.nodup_replicate] at hsel
  exact hsel

/-! #### Header words (30_encoding.md R78) -/

/-- The statements write a header word as its three bytes side by side (R77). -/
theorem append_eq_ofBytes (m t len : Byte) : m ++ t ++ len = Hdr.ofBytes m t len := rfl

/-- The decoder of a header word as a case distinction on its marker and its type. -/
theorem decodeHeader_ofBytes (known : List Byte) (m t len : Byte) :
    decodeHeader known (Hdr.ofBytes m t len) =
      if m = 0xCC#8 ∧ t ∈ known then
        if t = 0x81#8 then .instr (.hdrLog len)
        else if t = 0x86#8 then .instr (.hdrPingResp134 len)
        else if t = 0x88#8 then .instr (.hdrPingResp136 len)
        else .instr (.hdrKnown t len)
      else .instr (.hdrNoise (Hdr.ofBytes m t len)) := by
  simp only [decodeHeader, recognised_iff, headerRow_selects, Hdr.marker_ofBytes, Hdr.typeId_ofBytes, Hdr.length_ofBytes,
    marker]
  by_cases h : m = 0xCC#8
  · simp only [h, true_and]
  · simp only [h, false_and, if_false]

/-- Settles O35, along the decoder's own case distinction: in each case at most one of the five classes is meant. -/
theorem headerDecodeFollowsKnownTypes : Obligations.HeaderDecodeFollowsKnownTypes := by
  intro known m t len
  rw [append_eq_ofBytes, decodeHeader_ofBytes]
  by_cases hr : m = 0xCC#8 ∧ t ∈ known
  · rw [if_pos hr]
    by_cases h1 : t = 0x81#8
    · simp [h1, h1 ▸ hr]
    · by_cases h2 : t = 0x86#8
      · simp [h2, h2 ▸ hr]
      · by_cases h3 : t = 0x88#8
        · simp [h3, h3 ▸ hr]
        · simp [h1, h2, h3, hr]
  · rw [if_neg hr]
    simp [← and_assoc, hr]

/-- The well-formedness of HDR_NOISE on the word's bytes. -/
theorem wellFormed_hdrNoise_iff {known : List Byte} {m t len : Byte} :
    (Instr.hdrNoise (Hdr.ofBytes m t len)).wellFormed known = true ↔ ¬(m = 0xCC#8 ∧ t ∈ known) := by
  have hm : (Hdr.ofBytes m t len).extractLsb' 16 8 = m := Hdr.marker_ofBytes m t len
  have ht : (Hdr.ofBytes m t len).extractLsb' 8 8 = t := Hdr.typeId_ofBytes m t len
  simp [Instr.wellFormed, hm, ht, marker, imp_iff_not_or]

/-- A header word is the word of the class it decodes to, and that class is well-formed. -/
theorem encode_of_decodeHeader {known : List Byte} {h : Hdr} {i : Instr} (hd : decodeHeader known h = .instr i) :
    i.wellFormed known = true ∧ encode i = .hdr24 h := by
  generalize hm : Hdr.marker h = m, ht : Hdr.typeId h = t, hl : Hdr.length h = len
  obtain rfl : Hdr.ofBytes m t len = h := by rw [← hm, ← ht, ← hl, Hdr.ofBytes_fields]
  rw [decodeHeader_ofBytes] at hd
  split at hd
  · next hr =>
    obtain ⟨rfl, hk⟩ := hr
    (repeat' split at hd) <;> cases hd
    · next h1 => exact ⟨by simpa [Instr.wellFormed, h1] using hk, by rw [h1]; rfl⟩
    · next h1 => exact ⟨by simpa [Instr.wellFormed, h1] using hk, by rw [h1]; rfl⟩
    · next h1 => exact ⟨by simpa [Instr.wellFormed, h1] using hk, by rw [h1]; rfl⟩
    · next h1 h2 h3 => exact ⟨by simp [Instr.wellFormed, h1, h2, h3, hk], rfl⟩
  · next hr =>
    cases hd
    exact ⟨wellFormed_hdrNoise_iff.mpr hr, rfl⟩

/-! #### All three formats -/

/-- Settles O31, format by format. -/
theorem encodeOfDecodeIsIdentity : Obligations.EncodeOfDecodeIsIdentity := by
  intro known e i h
  cases e with
  | rx8 d =>
    cases h
    exact ⟨rfl, rfl⟩
  | cmd16 w => exact encode_of_decodeCmd known h
  | hdr24 hdr => exact encode_of_decodeHeader h

/-- Settles O30, instruction by instruction. -/
theorem decodeOfEncodeIsIdentity : Obligations.DecodeOfEncodeIsIdentity := by
  intro known i h
  cases i with
  | rxByte d => rfl
  | nop => rfl
  | framePop => rfl
  | frameRead idx => exact decodeCmd_frameReadWord idx
  | regRead addr => exact decodeCmd_regReadWord (of_decide_eq_true h)
  | cksClear => rfl
  | cksByte d => exact decodeCmd_cksByteWord d
  | clrErr => rfl
  | reset => rfl
  | hdrLog len =>
    have hk : 0x81#8 ∈ known := by simpa [Instr.wellFormed] using h
    exact (decodeHeader_ofBytes known 0xCC#8 0x81#8 len).trans (if_pos ⟨rfl, hk⟩)
  | hdrPingResp134 len =>
    have hk : 0x86#8 ∈ known := by simpa [Instr.wellFormed] using h
    exact (decodeHeader_ofBytes known 0xCC#8 0x86#8 len).trans (if_pos ⟨rfl, hk⟩)
  | hdrPingResp136 len =>
    have hk : 0x88#8 ∈ known := by simpa [Instr.wellFormed] using h
    exact (decodeHeader_ofBytes known 0xCC#8 0x88#8 len).trans (if_pos ⟨rfl, hk⟩)
  | hdrKnown t len =>
    obtain ⟨⟨⟨hk, h1⟩, h2⟩, h3⟩ : ((t ∈ known ∧ t ≠ 0x81#8) ∧ t ≠ 0x86#8) ∧ t ≠ 0x88#8 := by
      simpa [Instr.wellFormed] using h
    exact (decodeHeader_ofBytes known 0xCC#8 t len).trans (by rw [if_pos ⟨rfl, hk⟩, if_neg h1, if_neg h2, if_neg h3])
  | hdrNoise hdr =>
    rw [← Hdr.ofBytes_fields hdr] at h ⊢
    exact (decodeHeader_ofBytes known _ _ _).trans (if_neg (wellFormed_hdrNoise_iff.mp h))

/-- Settles O36: the decoder run on each word of the tables. -/
theorem tableWordsDecode : Obligations.TableWordsDecode := by
  unfold Obligations.TableWordsDecode
  decide

end Sys2Proof.Machine

/-! ### What the decoded instructions do (30_encoding.md R70, R75, R78)

A header class at a front that decodes to it, the link turn that makes such a front, the frame offered byte by byte, the answers
of the commands, and the step that runs a placed word. -/

namespace Sys2Proof.Machine

/-! #### Header classes (R78) -/

/-- The action of a header class at a front of its own; no transaction has one. -/
def State.classAction (s : State) : Instr → Option State
  | .hdrLog len => some (s.extractOrWait len)
  | .hdrPingResp134 len => some (s.extractOrWait len)
  | .hdrPingResp136 len => some (s.extractOrWait len)
  | .hdrKnown _ len => some (s.extractOrWait len)
  | .hdrNoise _ => some s.resync
  | _ => none

/-- A header class has its action where the front selects it, and no effect elsewhere (log entry 6). -/
theorem exec_class {i : Instr} {s t : State} (h : s.classAction i = some t) :
    exec i s = .next (if s.selectsClass i then t else s) := by
  cases i <;> cases h <;> rfl

theorem State.selectsClass_cons {s : State} {m t len : Byte} {rest : List Byte} (hb : s.buf = m :: t :: len :: rest)
    (i : Instr) : s.selectsClass i = true ↔ decodeHeader s.cfg.knownTypes (Hdr.ofBytes m t len) = .instr i := by
  simp [State.selectsClass, State.front_cons hb]

theorem State.selectsClass_short {s : State} (hb : s.buf.length < 3) (i : Instr) : s.selectsClass i = false := by
  simp [State.selectsClass, State.front_short hb]

/-- Settles O28: neither a short buffer nor a front of another class selects the class. -/
theorem unselectedClassHasNoEffect : Obligations.UnselectedClassHasNoEffect := by
  intro i s hi hb
  have hsel : ¬s.selectsClass i = true := by
    obtain hs | ⟨m, t, len, rest, hb, hd⟩ := hb
    · simp [State.selectsClass_short hs]
    · rwa [State.selectsClass_cons hb]
  obtain ⟨t, ht⟩ : ∃ t, s.classAction i = some t := by
    obtain ⟨len, rfl | rfl | rfl | ⟨ty, rfl⟩⟩ | ⟨h, rfl⟩ := hi
    all_goals exact ⟨_, rfl⟩
  rw [exec_class ht, if_neg hsel]

/-- The class that a front decodes to extracts or waits if the front is recognised, and drops one byte if it is not. -/
theorem exec_decodedHeader {s : State} {m t len : Byte} {rest : List Byte} {i : Instr}
    (hb : s.buf = m :: t :: len :: rest) (hd : decodeHeader s.cfg.knownTypes (Hdr.ofBytes m t len) = .instr i) :
    exec i s = .next (if m = 0xCC#8 ∧ t ∈ s.cfg.knownTypes then s.extractOrWait len else s.resync) := by
  have hact : s.classAction i = some (if m = 0xCC#8 ∧ t ∈ s.cfg.knownTypes then s.extractOrWait len else s.resync) := by
    rw [decodeHeader_ofBytes] at hd
    split at hd
    · next hr =>
      rw [if_pos hr]
      -- whatever the type, the class acts by its length alone
      (repeat' split at hd) <;> cases hd <;> rfl
    · next hr =>
      cases hd
      rw [if_neg hr]
      rfl
  rw [exec_class hact, if_pos ((State.selectsClass_cons hb i).mpr hd)]

theorem State.extractOrWait_complete {s : State} {m t len : Byte} {body after : List Byte}
    (hb : s.buf = m :: t :: len :: (body ++ after)) (hl : body.length = len.toNat + 1) :
    s.extractOrWait len = { s with outq := s.outq ++ [m :: t :: len :: body], buf := after } := by
  have hsize : frameSize len = (m :: t :: len :: body).length := by simp [frameSize_eq, hl]
  have hsplit : s.buf = (m :: t :: len :: body) ++ after := hb
  rw [State.extractOrWait, State.extract, hsize, hsplit, List.take_left, List.drop_left, if_pos (by simp)]

theorem State.extractOrWait_incomplete {s : State} {len : Byte} (hl : s.buf.length < frameSize len) :
    s.extractOrWait len = s :=
  if_neg hl.not_ge

/-- Settles O26: a front of a known type decodes to the class named by its type, which extracts the whole frame or waits. -/
theorem recognisedClassExtractsOrWaits : Obligations.RecognisedClassExtractsOrWaits := by
  intro i ty len s hi hk
  have hd : decodeHeader s.cfg.knownTypes (Hdr.ofBytes 0xCC#8 ty len) = .instr i := by
    rw [decodeHeader_ofBytes, if_pos ⟨rfl, hk⟩]
    obtain h | h | h | ⟨rfl, h1, h2, h3⟩ := hi
    · cases h
      rfl
    · cases h
      rfl
    · cases h
      rfl
    · rw [if_neg h1, if_neg h2, if_neg h3]
  refine ⟨fun body after hl hb => ?_, fun rest hb hl => ?_⟩
  · rw [exec_decodedHeader hb hd, if_pos ⟨rfl, hk⟩, State.extractOrWait_complete hb hl]
  · have hshort : s.buf.length < frameSize len := by
      simp only [hb, List.length_cons, frameSize_eq]
      omega
    rw [exec_decodedHeader hb hd, if_pos ⟨rfl, hk⟩, State.extractOrWait_incomplete hshort]

/-- Settles O27: a front that is not recognised decodes to HDR_NOISE, which drops one byte. -/
theorem noiseClassDropsOneByte : Obligations.NoiseClassDropsOneByte := by
  intro s m t len rest hb hr
  have hd := (decodeHeader_ofBytes s.cfg.knownTypes m t len).trans (if_neg hr)
  have hdrop : s.resync = { s with buf := t :: len :: rest, dropCount := s.dropCount + 1#32 } := by
    rw [State.resync, hb]
    rfl
  rw [append_eq_ofBytes, exec_decodedHeader hb hd, if_neg hr, hdrop]

/-- Under INV the accepted byte that makes a header front has the effect of the class that the front decodes to. -/
theorem State.acceptByte_eq_class {s : State} {d m t len : Byte} {rest : List Byte}
    (hinv : bufferInv s.cfg.knownTypes s.buf) (hb : s.buf ++ [d] = m :: t :: len :: rest) :
    s.acceptByte d =
      if m = 0xCC#8 ∧ t ∈ s.cfg.knownTypes then (s.append d).extractOrWait len else (s.append d).resync := by
  obtain hs | ⟨m', t', len', rest', hb', h⟩ := bufferInv_append hinv d
  · simp only [hb, List.length_cons] at hs
    omega
  · obtain ⟨rfl, rfl, rfl, rfl⟩ : m = m' ∧ t = t' ∧ len = len' ∧ rest = rest' := by simpa [hb] using hb'
    obtain ⟨hr, hl⟩ | ⟨hr, rfl⟩ := h
    · rw [if_pos hr]
      obtain hl | hl := hl.lt_or_eq
      · rw [State.acceptByte_hold hb hr hl, State.extractOrWait_incomplete (s := s.append d) hl]
        rfl
      · have hbody : rest.length = len.toNat + 1 := by
          rw [hb, List.length_cons, List.length_cons, List.length_cons, frameSize_eq] at hl
          omega
        rw [State.acceptByte_emit hb hr hl,
          State.extractOrWait_complete (s := s.append d) (after := []) (by rw [State.append_buf, hb, List.append_nil]) hbody, hb]
        rfl
    · rw [if_neg hr, State.acceptByte_drop hb hr, State.resync, State.append_buf, hb]
      rfl

/-- After the first reset a link turn on a ready port accepts the byte on offer. -/
theorem step_link_ready {s : State} {d : Byte} {ds : List Byte} {ts : List Turn} (ha : s.afterReset = true)
    (hready : s.outq.length < s.cfg.outDepth) (hl : s.linkIn = d :: ds) (hs : s.turns = .link :: ts) :
    step s = .next (({ s with linkIn := ds, turns := ts } : State).acceptByte d) :=
  (stepRunsOfferedByte s d ds ts ha hs hl).trans (exec_rxByte_ready (s := { s with linkIn := ds, turns := ts }) d hready)

/-- Settles O29: the turn accepts the byte, and the accepted byte has the class's effect. -/
theorem linkTurnRunsDecodedHeaderClass : Obligations.LinkTurnRunsDecodedHeaderClass := by
  intro s d m t len ds rest ts i ha hinv hready hs hl hb hd
  rw [step_link_ready ha hready hl hs, State.acceptByte_eq_class (s := { s with linkIn := ds, turns := ts }) hinv hb]
  exact (exec_decodedHeader (s := ({ s with linkIn := ds, turns := ts } : State).append d) hb hd).symm

/-! #### A frame offered byte by byte (R79) -/

/-- A byte that leaves INV true is only appended. -/
theorem State.acceptByte_of_bufferInv {s : State} {d : Byte} (h : bufferInv s.cfg.knownTypes (s.buf ++ [d])) :
    s.acceptByte d = { s with buf := s.buf ++ [d] } :=
  State.decisionLoop_of_none ((bufferInv_iff_iteration_none (s.append d)).mp h)

/-- Link turns over bytes that leave INV true one after the other only append them. -/
theorem run_append {s : State} {bytes more : List Byte} {ts : List Turn} (k : Nat) (ha : s.afterReset = true)
    (hready : s.outq.length < s.cfg.outDepth) (hl : s.linkIn = bytes ++ more)
    (hs : s.turns = List.replicate bytes.length .link ++ ts)
    (hinv : ∀ p, p <+: bytes → bufferInv s.cfg.knownTypes (s.buf ++ p)) :
    Host.Core.run Sys2Proof.core (bytes.length + k) s =
      Host.Core.run Sys2Proof.core k { s with buf := s.buf ++ bytes, linkIn := more, turns := ts } := by
  induction bytes generalizing s with
  | nil =>
    have hsame : s = { s with buf := s.buf ++ [], linkIn := more, turns := ts } := by
      rw [List.append_nil, ← show s.linkIn = more from hl, ← show s.turns = ts from hs]
    rw [← hsame, List.length_nil, Nat.zero_add]
  | cons d ds ih =>
    have hstep := step_link_ready ha hready hl hs
    rw [State.acceptByte_of_bufferInv (by exact hinv [d] (by simp))] at hstep
    rw [List.length_cons, Nat.add_right_comm, run_succ_of_next _ hstep, ih (by exact ha) (by exact hready) rfl rfl]
    · simp
    · intro p hp
      simpa using hinv (d :: p) (List.cons_prefix_cons.mpr ⟨rfl, hp⟩)

/-- One more link turn accepts the byte that follows them. -/
theorem run_append_accept {s : State} {bytes more : List Byte} {d : Byte} {ts : List Turn} (ha : s.afterReset = true)
    (hready : s.outq.length < s.cfg.outDepth) (hl : s.linkIn = bytes ++ d :: more)
    (hs : s.turns = List.replicate (bytes.length + 1) .link ++ ts)
    (hinv : ∀ p, p <+: bytes → bufferInv s.cfg.knownTypes (s.buf ++ p)) :
    Host.Core.run Sys2Proof.core (bytes.length + 1) s =
      .next (({ s with buf := s.buf ++ bytes, linkIn := more, turns := ts } : State).acceptByte d) := by
  rw [List.replicate_succ', List.append_assoc, List.singleton_append] at hs
  rw [run_append 1 ha hready hl hs hinv, run_one]
  exact step_link_ready (s := { s with buf := s.buf ++ bytes, linkIn := d :: more, turns := .link :: ts }) ha hready rfl rfl

/-- What a frame of a known type begins with, short of the whole frame, meets INV. -/
theorem bufferInv_of_isPrefix {known p payload : List Byte} {t len : Byte} (ht : t ∈ known)
    (hlen : payload.length = len.toNat) (hp : p <+: 0xCC#8 :: t :: len :: payload) : bufferInv known p := by
  have hle : p.length ≤ payload.length + 3 := hp.length_le
  rw [bufferInv_iff]
  obtain _ | ⟨m, _ | ⟨ty, _ | ⟨l, rest⟩⟩⟩ := p
  · exact .inl (by simp)
  · exact .inl (by simp)
  · exact .inl (by simp)
  · obtain ⟨rfl, rfl, rfl, -⟩ : m = 0xCC#8 ∧ ty = t ∧ l = len ∧ rest <+: payload := by
      simpa [List.cons_prefix_cons] using hp
    exact .inr ⟨_, _, _, rest, rfl, rfl, ht, by rw [frameSize_eq]; omega⟩

/-- Settles O51: all bytes but the last are only appended, and the last one completes the frame. -/
theorem offeredFrameIsEmittedWhole : Obligations.OfferedFrameIsEmittedWhole := by
  intro s t len rsi payload more ts ha hbuf hready ht hlen hl hs
  have hcount : 4 + len.toNat = (0xCC#8 :: t :: len :: payload).length + 1 := by
    simp only [List.length_cons]
    omega
  have hemit := State.acceptByte_emit (s := { s with buf := 0xCC#8 :: t :: len :: payload, linkIn := more, turns := ts })
    (d := rsi) rfl ⟨rfl, ht⟩ (by simp [frameSize_eq, hlen])
  rw [hcount] at hs ⊢
  rw [run_append_accept ha hready (by simpa using hl) hs, hbuf, List.nil_append, hemit]
  · simp
  · intro p hp
    rw [hbuf]
    exact bufferInv_of_isPrefix ht hlen hp

/-! #### The commands' answers (R75) -/

/-- REG_READ of an address that holds no register raises Illegal (log entry 12). -/
theorem exec_regRead_none {s : State} {addr : BitVec 4} (h : s.readReg addr = none) :
    exec (.regRead addr) s = .next (s.raiseIllegal .reservedEncoding) := by
  simp only [exec, execRegRead, h]

/-- Settles O6: no register stands at 6 to 15, and a word decodes to REG_READ of an address up to 5 only. -/
theorem regReadReservedAddressRaisesIllegal : Obligations.RegReadReservedAddressRaisesIllegal := by
  intro addr s h
  refine ⟨exec_regRead_none ?_, fun w hd => ?_⟩
  · rw [← Option.not_isSome_iff_eq_none, State.readReg_isSome_iff]
    omega
  · have hw := (encode_of_decodeCmd [] hd).1
    exact absurd (of_decide_eq_true hw) (by omega)

/-- Settles O11, command by command. -/
theorem otherCommandsAnswerZero : Obligations.OtherCommandsAnswerZero := by
  intro w s
  unfold runCommand commandCause
  cases hd : decodeCmd w with
  | reject r => exact ⟨_, rfl, fun _ => rfl⟩
  | instr i =>
    obtain ⟨-, rfl⟩ | ⟨-, rfl⟩ | ⟨-, rfl⟩ | rfl | ⟨rfl, -⟩ | ⟨a, rfl, ha⟩ | rfl | ⟨d, rfl⟩ := decodeCmd_cases hd
    · exact ⟨_, rfl, fun _ => rfl⟩
    · exact ⟨_, rfl, fun _ => rfl⟩
    · cases hq : s.outq with
      | nil => exact ⟨s.raiseIllegal .popEmpty, by simp [exec, execFramePop, hq], fun _ => rfl⟩
      | cons f q => exact ⟨({ s with outq := q } : State).respond 0#32, by simp [exec, execFramePop, hq], fun _ => rfl⟩
    · exact ⟨_, rfl, fun _ => rfl⟩
    · cases hv : s.readFrameView (Cmd.idx w) with
      | none => exact ⟨_, exec_frameRead_none hv, fun _ => rfl⟩
      | some b => exact ⟨_, exec_frameRead_some hv, by simp [hv]⟩
    · obtain ⟨v, hv⟩ := Option.isSome_iff_exists.mp ((s.readReg_isSome_iff a).mpr ha)
      exact ⟨_, exec_regRead_some hv, by simp⟩
    · exact ⟨_, rfl, fun _ => rfl⟩
    · exact ⟨_, rfl, fun _ => rfl⟩

/-! #### Placed words (log entry 8) -/

/-- A table word that decodes is a word of one of the three formats, and is placed as such. -/
theorem decodeTableWord_cases {nbits w : Nat} {i : Instr} (h : decodeTableWord nbits w = some i) :
    ∃ e, encodedOfTableWord nbits w = some e ∧ decode Config.default.knownTypes e = .instr i := by
  unfold decodeTableWord at h
  split at h
  · next e he =>
    split at h
    · next j hj =>
      cases h
      exact ⟨e, he, hj⟩
    · cases h
  · cases h

theorem State.withFetchWord_of_encoded {nbits w : Nat} {e : Encoded} (s : State) (h : encodedOfTableWord nbits w = some e) :
    s.withFetchWord nbits w = s.offer e := by
  simp only [State.withFetchWord, h]

/-- The next step takes the offered byte, and leaves the inputs as they were before the offer. -/
theorem step_offer_rx8 (s : State) (d : Byte) : step (s.offer (.rx8 d)) = exec (decodeRx d) { s with afterReset := true } := rfl

/-- The next step takes the offered command word, and leaves the inputs as they were before the offer. -/
theorem step_offer_cmd16 (s : State) (w : Cmd) : step (s.offer (.cmd16 w)) = runCommand w { s with afterReset := true } := rfl

theorem runCommand_of_decodes {w : Cmd} {i : Instr} (h : decodeCmd w = .instr i) (s : State) : runCommand w s = exec i s := by
  simp only [runCommand, h]

/-- An offered header word meets the decision loop as a front of its own three bytes. -/
theorem step_offer_hdr24 {s : State} {m t len : Byte} {i : Instr} (hlegal : s.cfg.Legal)
    (hd : decodeHeader s.cfg.knownTypes (Hdr.ofBytes m t len) = .instr i) :
    step (s.offer (.hdr24 (Hdr.ofBytes m t len))) =
      exec i { s with afterReset := true, buf := [m, t, len],
                      outq := if s.outq.length < s.cfg.outDepth then s.outq else [] } := by
  have hready : (if s.outq.length < s.cfg.outDepth then s.outq else []).length < s.cfg.outDepth := by
    split
    · next h => exact h
    · exact hlegal
  have hoffer : s.offer (.hdr24 (Hdr.ofBytes m t len)) = { s with
      afterReset := true, buf := [m, t], outq := if s.outq.length < s.cfg.outDepth then s.outq else []
      linkIn := len :: s.linkIn, turns := .link :: s.turns } := by
    simp [State.offer, State.rxReady]
  rw [hoffer]
  exact linkTurnRunsDecodedHeaderClass _ len m t len s.linkIn [] s.turns i rfl (bufferInv_iff.mpr (.inl (by simp))) hready
    rfl rfl rfl hd

/-- Settles O39, format by format. -/
theorem stepRunsPlacedWord : Obligations.StepRunsPlacedWord := by
  refine ⟨fun s nbits w i hn h => ?_, fun s m t len i hlegal hk h => ?_⟩
  · obtain ⟨e, he, hd⟩ := decodeTableWord_cases h
    rw [State.withFetchWord_of_encoded s he]
    unfold encodedOfTableWord at he
    split at he
    · obtain rfl | rfl := hn
      · cases he
        cases hd
        exact step_offer_rx8 s _
      · cases he
        rw [step_offer_cmd16, runCommand_of_decodes hd]
    · cases he
  · obtain ⟨e, he, hd⟩ := decodeTableWord_cases h
    obtain rfl : Encoded.hdr24 (m ++ t ++ len) = e := by
      rw [encodedOfTableWord, if_pos (m ++ t ++ len).isLt] at he
      simpa using he
    rw [State.withFetchWord_of_encoded s he]
    exact step_offer_hdr24 hlegal (hk ▸ hd)

end Sys2Proof.Machine

/-! ### The checksum unit (40_checksum.md)

What the two checksum commands do, verify as a zero checksum, the unit over a run of host turns, and what RX_BYTE does not
read. -/

namespace Sys2Proof.Machine

/-! #### The two commands (R101, R102) -/

theorem exec_cksClear (s : State) : exec .cksClear s = .next { s with cksAcc := 0x00#8, cksAny := false, rsp := 0#32 } := rfl

theorem exec_cksByte (d : Byte) (s : State) :
    exec (.cksByte d) s = .next { s with cksAcc := s.cksAcc ^^^ d, cksAny := true, rsp := 0#32 } := rfl

/-- The bits of a CKS_BYTE word, added up or concatenated (30_encoding.md R73). -/
theorem cksByteWord_eq (d : Byte) : 0x5000#16 ||| d.setWidth 16 = 0x5#4 ++ 0x0#4 ++ d := rfl

theorem decodeCmd_cksByte (d : Byte) : decodeCmd (0x5000#16 ||| d.setWidth 16) = .instr (.cksByte d) :=
  cksByteWord_eq d ▸ decodeCmd_cksByteWord d

theorem decodeCmd_cksClear : decodeCmd 0x4000#16 = .instr .cksClear := by decide

/-- A reserved word only raises Illegal (42_host_ops.md R158). -/
theorem runCommand_of_reserved {w : Cmd} (h : ¬legalCommand w = true) (s : State) :
    runCommand w s = .next { s with illegal := true, rsp := 0#32 } := by
  cases hd : decodeCmd w with
  | instr i => exact absurd (legalCommand_iff.mpr ⟨i, hd⟩) h
  | reject r =>
    simp only [runCommand, hd]
    rfl

theorem State.getLsbD_status_three (s : State) : s.status.getLsbD 3 = s.cksAny := by
  rw [State.getLsbD_status]
  simp

theorem State.getLsbD_status_four (s : State) : s.status.getLsbD 4 = s.cksOk := by
  rw [State.getLsbD_status]
  simp

/-- Settles O7: the command's effect and the two bits after it; op 4 is legal with arg 0 only. -/
theorem cksClearStartsChecksum : Obligations.CksClearStartsChecksum := by
  refine ⟨decodeCmd_cksClear, exec_cksClear, fun s t h => ?_,
    fun w s hlo hhi => runCommand_of_reserved (mt (legalWordsAreTheUnreservedOnes w).mp ?_) s⟩
  · rw [exec_cksClear] at h
    cases h
    exact ⟨State.getLsbD_status_three _, State.getLsbD_status_four _⟩
  · omega

/-- Settles O8: the command's effect and the two bits after it; op 5 is legal with arg below 256 only. -/
theorem cksByteAccumulates : Obligations.CksByteAccumulates := by
  refine ⟨decodeCmd_cksByte, exec_cksByte, fun d s t h => ?_,
    fun w s hlo hhi => runCommand_of_reserved (mt (legalWordsAreTheUnreservedOnes w).mp ?_) s⟩
  · rw [exec_cksByte] at h
    cases h
    rw [State.getLsbD_status_three, State.getLsbD_status_four]
    simp [State.cksOk]
  · omega

/-! #### verify and the checksum's algebra (R104, R105) -/

/-- verify compares the last byte with the checksum of those before it. -/
theorem verifyChecksum_concat (p : List Byte) (b : Byte) : verifyChecksum (p ++ [b]) = (checksum p == b) := by
  simp [verifyChecksum]

/-- verify is a zero checksum of a non-empty sequence: the last byte cancels the checksum of the others. -/
theorem verifyChecksum_eq (bytes : List Byte) : verifyChecksum bytes = (!bytes.isEmpty && checksum bytes == 0x00#8) := by
  rcases List.eq_nil_or_concat bytes with rfl | ⟨p, b, rfl⟩
  · rfl
  · simp [verifyChecksum_concat, beq_eq_decide]

/-- Settles O55, in the closed form of verify. -/
theorem verifyIsZeroChecksum : Obligations.VerifyIsZeroChecksum := by
  intro bytes
  rw [verifyChecksum_eq]
  simp [Nat.one_le_iff_ne_zero]

/-- The checksum does not depend on the order of the bytes: two neighbours may change places. -/
theorem checksum_perm {p q : List Byte} (h : p.Perm q) : checksum p = checksum q := by
  induction h with
  | nil => rfl
  | cons b _ ih => rw [checksum_cons, checksum_cons, ih]
  | swap a b rest =>
    simp only [checksum_cons]
    rw [← BitVec.xor_assoc, BitVec.xor_comm b a, BitVec.xor_assoc]
  | trans _ _ ih₁ ih₂ => exact ih₁.trans ih₂

/-- Settles O56: a byte XOR itself is 0, and XOR commutes. -/
theorem checksumIsSelfInverseAndOrderFree : Obligations.ChecksumIsSelfInverseAndOrderFree :=
  ⟨fun p => ⟨by simp, by simp [verifyChecksum_concat]⟩, fun _ _ => checksum_perm⟩

/-! #### The unit over a run of host turns (R103, R104) -/

/-- After the first reset a host turn with a legal word on offer is that word's command. -/
theorem step_host_of_decodes {s : State} {w : Cmd} {ws : List Cmd} {ts : List Turn} {i : Instr} (ha : s.afterReset = true)
    (hs : s.turns = .host :: ts) (hw : s.hostIn = w :: ws) (hd : decodeCmd w = .instr i) :
    step s = exec i { s with hostIn := ws, turns := ts } := by
  simp only [step, hs, hostTurn, hw, ha, Bool.true_or, if_true, runCommand_of_decodes hd]

/-- CKS_BYTE words one after the other add the checksum of their bytes to the accumulator, and change nothing else. -/
theorem run_cksBytes {s : State} {bytes : List Byte} {more : List Cmd} {ts : List Turn} (k : Nat) (ha : s.afterReset = true)
    (hrsp : s.rsp = 0#32) (hw : s.hostIn = (bytes.map fun d => 0x5000#16 ||| d.setWidth 16) ++ more)
    (hs : s.turns = List.replicate bytes.length .host ++ ts) :
    Host.Core.run Sys2Proof.core (bytes.length + k) s =
      Host.Core.run Sys2Proof.core k { s with
        cksAcc := s.cksAcc ^^^ checksum bytes, cksAny := s.cksAny || !bytes.isEmpty, hostIn := more, turns := ts } := by
  induction bytes generalizing s with
  | nil =>
    have hsame : s = { s with hostIn := more, turns := ts } := by
      rw [← show s.hostIn = more from hw, ← show s.turns = ts from hs]
    simp [← hsame]
  | cons d ds ih =>
    have hstep := (step_host_of_decodes ha hs hw (decodeCmd_cksByte d)).trans (exec_cksByte d _)
    rw [List.length_cons, Nat.add_right_comm, run_succ_of_next _ hstep, ih (by exact ha) rfl rfl rfl]
    simp [hrsp, BitVec.xor_assoc]

/-- A host turn that offers REG_READ CKS_VALUE answers the accumulator (10_state.md R36). -/
theorem step_readCksValue {s : State} {ws : List Cmd} {ts : List Turn} (ha : s.afterReset = true)
    (hs : s.turns = .host :: ts) (hw : s.hostIn = 0x3004#16 :: ws) :
    step s = .next { s with rsp := s.cksAcc.setWidth 32, hostIn := ws, turns := ts } :=
  (step_host_of_decodes ha hs hw (i := .regRead 4#4) (by decide)).trans (exec_regRead_some rfl)

/-- Settles O54: CKS_CLEAR, the CKS_BYTE words by induction, and REG_READ CKS_VALUE, each from the state the last one left. -/
theorem checksumRunComputesChecksum : Obligations.ChecksumRunComputesChecksum := by
  intro s bytes more ts ha hw hs
  have hturns : s.turns = .host :: (List.replicate bytes.length .host ++ .host :: ts) := by
    rw [hs, List.replicate_succ, List.replicate_succ', List.cons_append, List.append_assoc, List.singleton_append]
  have hclear := (step_host_of_decodes ha hturns hw decodeCmd_cksClear).trans (exec_cksClear _)
  refine ⟨_, ?_, rfl, ?_⟩
  · rw [run_succ_of_next _ hclear, run_cksBytes 1 (by exact ha) rfl rfl rfl, run_one, step_readCksValue (by exact ha) rfl rfl,
      BitVec.zero_xor, Bool.false_or]
    rfl
  · rw [State.getLsbD_status_four, verifyChecksum_eq]
    rfl

/-! #### What RX_BYTE does not read (R106, 42_host_ops.md R159) -/

theorem State.acceptByte_withHostSide (s : State) (acc : Byte) (any ill : Bool) (v : Word) (d : Byte) :
    (s.withHostSide acc any ill v).acceptByte d = (s.acceptByte d).withHostSide acc any ill v :=
  State.acceptByte_map (f := (·.withHostSide acc any ill v))
    (fun _ => rfl) (fun _ => rfl) (fun _ _ => rfl) (fun _ => rfl) (fun _ _ => rfl) s d

/-- Settles O57: an accepted byte passes through a change of the host's side, and a stalled one only goes back on offer. -/
theorem rxByteIgnoresHostSide : Obligations.RxByteIgnoresHostSide := by
  intro s t d acc any ill v h
  refine ⟨?_, ?_⟩
  · obtain ⟨hr, rfl⟩ | ⟨hr, rfl⟩ := exec_rxByte_cases h
    · rw [exec_rxByte_ready d (by exact hr), State.acceptByte_withHostSide]
    · exact exec_rxByte_stalled d hr
  · obtain ⟨_, _, _, _, rfl⟩ := exec_rxByte_frame h
    rfl

end Sys2Proof.Machine

/-! ### The frame detector (41_frame_detector.md)

The decision loop is the rule's relation `Drains`, which conserves bytes and has one outcome; under INV an accepted byte has the
closed form of R128, and the mode, the chunks and the streams follow from it. -/

namespace Sys2Proof.Machine

/-! #### The four outcomes of an accepted byte (R128) -/

theorem bufferInv_nil (known : List Byte) : bufferInv known [] := .inl ⟨rfl, Nat.zero_le 2⟩

/-- Under INV the appended byte makes no front that holds more than its frame, and none of noise longer than three bytes. -/
theorem bufferInv_append_cons {known b rest : List Byte} {d m ty len : Byte} (h : bufferInv known b)
    (hb : b ++ [d] = m :: ty :: len :: rest) :
    (m = 0xCC#8 ∧ ty ∈ known) ∧ (b ++ [d]).length ≤ frameSize len ∨ ¬(m = 0xCC#8 ∧ ty ∈ known) ∧ rest = [] := by
  obtain hs | ⟨m', ty', len', rest', hb', hc⟩ := bufferInv_append h d
  · simp only [hb, List.length_cons] at hs
    omega
  · obtain ⟨rfl, rfl, rfl, rfl⟩ : m = m' ∧ ty = ty' ∧ len = len' ∧ rest = rest' := by simpa [hb] using hb'
    exact hc

/-- Settles O19, one outcome at a time: APPEND, EMIT, HOLD and DROP. -/
theorem rxByteHasOneOfFourOutcomes : Obligations.RxByteHasOneOfFourOutcomes := by
  refine ⟨fun s d hinv hready => ?_, bufferInv_nil⟩
  rw [exec_rxByte_ready d hready]
  refine ⟨fun hs => by rw [State.acceptByte_short hs],
    fun m ty len rest hb => ⟨fun hr hl => ?_, fun hr hl => ?_, fun hr => ?_⟩, ?_⟩
  · rw [State.acceptByte_emit hb hr hl]
  · obtain ⟨-, hle⟩ | ⟨hn, -⟩ := bufferInv_append_cons hinv hb
    · have hlt : (s.buf ++ [d]).length < frameSize len := lt_of_le_of_ne hle hl
      exact ⟨hlt, by rw [State.acceptByte_hold hb hr hlt]⟩
    · exact absurd hr hn
  · obtain ⟨hr', -⟩ | ⟨-, rfl⟩ := bufferInv_append_cons hinv hb
    · exact absurd hr' hr
    · exact ⟨rfl, by rw [State.acceptByte_drop hb hr]⟩
  · rintro u ⟨⟩
    exact s.acceptByte_bufferInv d

/-- Settles O21: the longest buffer is a frame of the longest kind, short of its last byte. -/
theorem bufferNeverOverflows : Obligations.BufferNeverOverflows := by
  intro s d hinv
  have hle := length_le_of_bufferInv hinv
  refine ⟨hle, ?_⟩
  rw [State.append_buf, List.length_append, List.length_singleton, bufCap]
  omega

/-! #### The decision loop as a relation (R122) -/

theorem State.iteration_complete {s : State} {ty len : Byte} {body after : List Byte}
    (hb : s.buf = 0xCC#8 :: ty :: len :: (body ++ after)) (hty : ty ∈ s.cfg.knownTypes) (hl : body.length = len.toNat + 1) :
    s.iteration = some { s with outq := s.outq ++ [0xCC#8 :: ty :: len :: body], buf := after } := by
  have hfits : frameSize len ≤ s.buf.length := by
    simp only [hb, frameSize_eq, List.length_cons, List.length_append]
    omega
  have hx := State.extractOrWait_complete hb hl
  rw [State.extractOrWait, if_pos hfits] at hx
  have hr : recognised s.cfg.knownTypes 0xCC#8 ty = true := (recognised_iff _ _ _).mpr ⟨rfl, hty⟩
  rw [State.iteration_cons hb, if_pos hr, if_pos hfits, hx]

theorem State.iteration_noise {s : State} {m ty len : Byte} {rest : List Byte} (hb : s.buf = m :: ty :: len :: rest)
    (hr : ¬(m = 0xCC#8 ∧ ty ∈ s.cfg.knownTypes)) :
    s.iteration = some { s with buf := ty :: len :: rest, dropCount := s.dropCount + 1#32 } := by
  rw [State.iteration_cons hb, if_neg fun h => hr ((recognised_iff _ _ _).mp h), State.resync, hb]
  rfl

/-- An iteration that goes on emits the complete frame at the front, or drops the first byte of a front that is no header: the
steps of R122 as `Drains` writes them. -/
theorem State.iteration_some {s u : State} (h : s.iteration = some u) :
    (∃ ty len body after, s.buf = 0xCC#8 :: ty :: len :: (body ++ after) ∧ ty ∈ s.cfg.knownTypes ∧
      body.length = len.toNat + 1 ∧ u = { s with outq := s.outq ++ [0xCC#8 :: ty :: len :: body], buf := after }) ∨
    (∃ m ty len rest, s.buf = m :: ty :: len :: rest ∧ ¬(m = 0xCC#8 ∧ ty ∈ s.cfg.knownTypes) ∧
      u = { s with buf := ty :: len :: rest, dropCount := s.dropCount + 1#32 }) := by
  obtain ⟨m, ty, len, rest, hb, ⟨hr, hl, -⟩ | ⟨hr, -⟩⟩ := State.iteration_cases h
  · obtain ⟨rfl, hty⟩ := (recognised_iff _ _ _).mp hr
    have hbody : (rest.take (len.toNat + 1)).length = len.toNat + 1 := by
      simp only [hb, frameSize_eq, List.length_cons] at hl
      exact List.length_take_of_le (by omega)
    have hsplit : s.buf = 0xCC#8 :: ty :: len :: (rest.take (len.toNat + 1) ++ rest.drop (len.toNat + 1)) := by
      rw [List.take_append_drop]
      exact hb
    exact .inl ⟨ty, len, _, _, hsplit, hty, hbody, Option.some.inj (h.symm.trans (State.iteration_complete hsplit hty hbody))⟩
  · have hn : ¬(m = 0xCC#8 ∧ ty ∈ s.cfg.knownTypes) := fun hn => by simp [(recognised_iff _ m ty).mpr hn] at hr
    exact .inr ⟨m, ty, len, rest, hb, hn, Option.some.inj (h.symm.trans (State.iteration_noise hb hn))⟩

/-- INV says that the loop exits at once, with nothing emitted and nothing dropped (R127). -/
theorem Drains.of_bufferInv {known b : List Byte} (h : bufferInv known b) : Drains known b [] 0 b := by
  obtain hs | ⟨m, ty, len, rest, rfl, rfl, hty, hl⟩ := bufferInv_iff.mp h
  · exact .tooFew hs
  · exact .incomplete hty hl

/-- Every byte of the buffer is emitted, dropped or left. -/
theorem Drains.length_eq {known b r : List Byte} {fs : List Frame} {n : Nat} (h : Drains known b fs n r) :
    (fs.map List.length).sum + n + r.length = b.length := by
  induction h with
  | tooFew _ => simp
  | incomplete _ _ => simp
  | complete _ _ _ ih =>
    simp only [List.map_cons, List.sum_cons, List.length_cons, List.length_append]
    omega
  | noise _ _ ih =>
    simp only [List.length_cons] at ih ⊢
    omega

/-- The loop does what the relation says: the frames go to the queue's tail, the drops are counted, and nothing else changes. -/
theorem Drains.decisionLoop_eq {known b r : List Byte} {fs : List Frame} {n : Nat} (h : Drains known b fs n r) {s : State}
    (hk : s.cfg.knownTypes = known) (hb : s.buf = b) :
    s.decisionLoop = { s with buf := r, outq := s.outq ++ fs, dropCount := s.dropCount + BitVec.ofNat 32 n } := by
  induction h generalizing s with
  | tooFew hs =>
    subst hb
    rw [State.decisionLoop_of_none (State.iteration_short hs)]
    simp
  | incomplete hty hl =>
    have hinv : bufferInv s.cfg.knownTypes s.buf :=
      bufferInv_iff.mpr (.inr ⟨_, _, _, _, hb, rfl, hk ▸ hty, by rw [hb]; exact hl⟩)
    rw [State.decisionLoop_of_none ((bufferInv_iff_iteration_none s).mp hinv), ← hb]
    simp
  | complete hty hl _ ih =>
    refine (State.decisionLoop_of_some (State.iteration_complete hb (hk ▸ hty) hl)).trans (.trans (ih hk rfl) ?_)
    simp
  | noise hr _ ih =>
    refine (State.decisionLoop_of_some (State.iteration_noise hb (hk ▸ hr))).trans (.trans (ih hk rfl) ?_)
    rw [Nat.add_comm _ 1, BitVec.ofNat_add, BitVec.add_assoc]

/-- From every buffer the rule has an outcome: its loop ends. -/
theorem exists_drains (s : State) : ∃ fs n, Drains s.cfg.knownTypes s.buf fs n s.decisionLoop.buf := by
  refine State.decisionLoop_induction (P := fun s u => ∃ fs n, Drains s.cfg.knownTypes s.buf fs n u.buf)
    (fun s hi => ⟨[], 0, .of_bufferInv ((bufferInv_iff_iteration_none s).mpr hi)⟩) ?_ s
  rintro s u hi ⟨fs, n, hd⟩
  obtain ⟨ty, len, body, after, hb, hty, hl, rfl⟩ | ⟨m, ty, len, rest, hb, hr, rfl⟩ := State.iteration_some hi
  · rw [hb]
    exact ⟨_, n, .complete hty hl hd⟩
  · rw [hb]
    exact ⟨fs, n + 1, .noise hr hd⟩

/-- The rule has one outcome: the loop tells the frames and what is left, and the number of bytes then tells the drops. -/
theorem Drains.unique {known b r r' : List Byte} {fs fs' : List Frame} {n n' : Nat} (h : Drains known b fs n r)
    (h' : Drains known b fs' n' r') : fs = fs' ∧ n = n' ∧ r = r' := by
  have hloop := h.decisionLoop_eq (s := { State.reset with cfg := { knownTypes := known, outDepth := 1 }, buf := b }) rfl rfl
  rw [h'.decisionLoop_eq rfl rfl] at hloop
  obtain rfl : fs = fs' := (congrArg State.outq hloop).symm
  obtain rfl : r = r' := (congrArg State.buf hloop).symm
  have hn := h.length_eq.trans h'.length_eq.symm
  exact ⟨rfl, by omega, rfl⟩

/-- Under INV one more byte costs the loop at most one emission or one drop (R128). -/
theorem exists_drains_of_bufferInv {known b : List Byte} (h : bufferInv known b) (d : Byte) :
    ∃ fs n r, Drains known (b ++ [d]) fs n r ∧ fs.length + n ≤ 1 := by
  obtain hs | ⟨m, ty, len, rest, hb, ⟨hr, hl⟩ | ⟨hr, rfl⟩⟩ := bufferInv_append h d
  · exact ⟨[], 0, _, .tooFew hs, Nat.zero_le 1⟩
  · obtain ⟨rfl, hty⟩ := hr
    rw [hb] at hl ⊢
    obtain hl | hl := hl.lt_or_eq
    · exact ⟨[], 0, _, .incomplete hty hl, Nat.zero_le 1⟩
    · have hbody : rest.length = len.toNat + 1 := by
        simp only [List.length_cons, frameSize_eq] at hl
        omega
      have hd := Drains.complete (after := []) hty hbody (.tooFew (Nat.zero_lt_succ 2))
      rw [List.append_nil] at hd
      exact ⟨_, 0, _, hd, Nat.le_refl 1⟩
  · rw [hb]
    exact ⟨[], 1, _, .noise hr (.tooFew (Nat.lt_succ_self 2)), Nat.le_refl 1⟩

/-- An accepted byte runs the rule's loop on the appended buffer (R120 to R122). -/
theorem State.acceptByte_drains (s : State) (d : Byte) :
    ∃ fs n r, Drains s.cfg.knownTypes (s.buf ++ [d]) fs n r ∧
      s.acceptByte d = { s with buf := r, outq := s.outq ++ fs, dropCount := s.dropCount + BitVec.ofNat 32 n } := by
  obtain ⟨fs, n, h⟩ := exists_drains (s.append d)
  exact ⟨fs, n, _, h, h.decisionLoop_eq (s := s.append d) rfl rfl⟩

/-- Settles O18: the loop is the relation, which has one outcome, and under INV a small one. -/
theorem rxByteRunsDecisionLoop : Obligations.RxByteRunsDecisionLoop := by
  refine ⟨fun s d hready => ?_, fun _ _ _ _ _ _ _ _ => Drains.unique, fun known b d fs n r hinv h => ?_⟩
  · obtain ⟨fs, n, r, h, he⟩ := s.acceptByte_drains d
    exact ⟨fs, n, r, h, by rw [exec_rxByte_ready d hready, he]⟩
  · obtain ⟨fs', n', r', h', hle⟩ := exists_drains_of_bufferInv hinv d
    obtain ⟨rfl, rfl, rfl⟩ := h.unique h'
    exact hle

/-- Settles O22: the loop's relation conserves bytes. -/
theorem rxByteConservesBytes : Obligations.RxByteConservesBytes := by
  intro s t d hready ht
  obtain ⟨fs, n, r, h, he⟩ := s.acceptByte_drains d
  rw [exec_rxByte_ready d hready, he] at ht
  cases ht
  have hlen := h.length_eq
  rw [List.length_append, List.length_singleton] at hlen
  exact ⟨fs, n, rfl, rfl, hlen⟩

/-! #### The mode (R130) -/

theorem State.mode_eq_scanning_iff {s : State} : s.mode = .scanning ↔ s.mode ≠ .draining := by
  cases s.mode <;> simp

theorem State.mode_of_short {s : State} (h : s.buf.length < 3) : s.mode = .scanning := by
  refine State.mode_eq_scanning_iff.mpr fun hd => ?_
  obtain ⟨ty, len, rest, hb, -⟩ := State.mode_eq_draining_iff.mp hd
  simp only [hb, List.length_cons] at h
  omega

/-- No host word but RESET changes the mode: none writes the buffer. -/
theorem runCommand_mode {s u : State} {w : Cmd} (h : runCommand w s = .next u) (hw : w ≠ 0x7000#16) : u.mode = s.mode := by
  obtain rfl | ⟨-, rfl⟩ | ⟨rfl, -⟩ | ⟨-, f, q, -, rfl⟩ | ⟨v, rfl⟩ | ⟨a, b, -, rfl⟩ := runCommand_cases h
  · rfl
  · rfl
  · exact absurd rfl hw
  · rfl
  · rfl
  · rfl

/-- A third byte finds a header, which holds, or noise, which leaves two bytes. -/
theorem State.acceptByte_mode_third {s : State} {d m ty len : Byte} (hb : s.buf ++ [d] = [m, ty, len]) :
    (s.acceptByte d).mode = .draining ↔ m = 0xCC#8 ∧ ty ∈ s.cfg.knownTypes := by
  by_cases hr : m = 0xCC#8 ∧ ty ∈ s.cfg.knownTypes
  · have hlt : (s.buf ++ [d]).length < frameSize len := by
      rw [hb]
      exact (frameSize_bounds len).1
    rw [State.acceptByte_hold hb hr hlt, State.mode_eq_draining_iff]
    exact iff_of_true ⟨ty, len, [], hr.1 ▸ hb, hr.2⟩ hr
  · rw [State.acceptByte_drop hb hr]
    exact iff_of_false nofun hr

/-- While DRAINING under INV, the byte that completes the frame empties the buffer, and any other one is held. -/
theorem State.acceptByte_mode_draining {s : State} {d m ty len : Byte} {rest : List Byte}
    (hinv : bufferInv s.cfg.knownTypes s.buf) (hmode : s.mode = .draining) (hb : s.buf ++ [d] = m :: ty :: len :: rest) :
    (s.acceptByte d).mode = .scanning ↔ (s.buf ++ [d]).length = frameSize len := by
  obtain ⟨ty', len', rest', hbuf, hty⟩ := State.mode_eq_draining_iff.mp hmode
  obtain ⟨rfl, rfl, rfl, rfl⟩ : 0xCC#8 = m ∧ ty' = ty ∧ len' = len ∧ rest' ++ [d] = rest := by simpa [hbuf] using hb
  obtain ⟨-, hle⟩ | ⟨hn, -⟩ := bufferInv_append_cons hinv hb
  · obtain hlt | heq := hle.lt_or_eq
    · rw [State.acceptByte_hold hb ⟨rfl, hty⟩ hlt, State.mode_eq_scanning_iff]
      exact iff_of_false (fun h => h (State.mode_eq_draining_iff.mpr ⟨_, _, _, hb, hty⟩)) hlt.ne
    · rw [State.acceptByte_emit hb ⟨rfl, hty⟩ heq]
      exact iff_of_true rfl heq
  · exact absurd ⟨rfl, hty⟩ hn

/-- Only an accepted byte and a reset event can change the mode. -/
theorem step_mode {s u : State} (h : step s = .next u)
    (hlink : ∀ ts d ds, s.turns = .link :: ts → s.linkIn = d :: ds → s.cfg.outDepth ≤ s.outq.length)
    (hhost : ∀ ts ws, s.turns = .host :: ts → s.hostIn ≠ 0x7000#16 :: ws) (hrst : ∀ ts, s.turns ≠ .rst :: ts) :
    u.mode = s.mode := by
  obtain ⟨-, rfl⟩ | ⟨ts, hs, hx⟩ | ⟨ts, hs, hx⟩ | ⟨ts, hs, -⟩ := step_cases h
  · rfl
  · obtain ⟨-, rfl⟩ | ⟨d, ds, hl, -, hd⟩ := linkTurn_cases hx
    · rfl
    · rw [exec_rxByte_stalled d (by exact hlink ts d ds hs hl)] at hd
      cases hd
      rfl
  · obtain ⟨-, rfl⟩ | ⟨w, ws, hw, -, hc⟩ := hostTurn_cases hx
    · rfl
    · exact runCommand_mode (s := { s with turns := ts, hostIn := ws }) hc fun hw0 => hhost ts ws hs (hw0 ▸ hw)
  · exact absurd hs (hrst ts)

/-- Settles O20: the bytes by the closed forms, the words by their frame, and a reset event by the empty buffer. -/
theorem modeFollowsStateMachine : Obligations.ModeFollowsStateMachine := by
  refine ⟨fun s u d hinv hready hu => ?_, fun w s u hw h => runCommand_mode h hw, fun s u h => ?_, fun s u ts hs h => ?_,
    fun s u => step_mode⟩
  · rw [exec_rxByte_ready d hready] at hu
    cases hu
    refine ⟨fun _ hs => ?_, fun _ m ty len hb => State.acceptByte_mode_third hb,
      fun hmode m ty len rest hb => State.acceptByte_mode_draining hinv hmode hb⟩
    rw [State.acceptByte_short hs]
    exact State.mode_of_short hs
  · cases h
    rfl
  · rw [step, hs] at h
    cases h
    rfl

/-! #### Chunks (R131) -/

/-- Bytes that arrive later do not change what an iteration does now. -/
theorem State.iteration_append {s t : State} (h : s.iteration = some t) (chunk : List Byte) :
    ({ s with buf := s.buf ++ chunk } : State).iteration = some { t with buf := t.buf ++ chunk } := by
  obtain ⟨ty, len, body, after, hb, hty, hl, rfl⟩ | ⟨m, ty, len, rest, hb, hr, rfl⟩ := State.iteration_some h
  · exact State.iteration_complete (s := { s with buf := s.buf ++ chunk }) (by simp [hb]) hty hl
  · exact State.iteration_noise (s := { s with buf := s.buf ++ chunk }) (by simp [hb]) hr

/-- The loop may run before a chunk is appended as well as after it. -/
theorem State.feed_decisionLoop (s : State) (chunk : List Byte) : s.decisionLoop.feed chunk = s.feed chunk :=
  State.decisionLoop_induction (P := fun s t => t.feed chunk = s.feed chunk) (fun _ _ => rfl)
    (fun _ _ h ih => ih.trans (State.decisionLoop_of_some (State.iteration_append h chunk)).symm) s

theorem State.feed_cons (s : State) (d : Byte) (chunk : List Byte) : s.feed (d :: chunk) = (s.acceptByte d).feed chunk := by
  rw [State.acceptByte, State.feed_decisionLoop, State.feed, State.feed, State.append_buf, List.append_assoc]
  rfl

theorem State.feed_nil {s : State} (h : bufferInv s.cfg.knownTypes s.buf) : s.feed [] = s := by
  rw [State.feed, List.append_nil]
  exact State.decisionLoop_of_none ((bufferInv_iff_iteration_none s).mp h)

theorem State.feed_eq_acceptBytes {s : State} (h : bufferInv s.cfg.knownTypes s.buf) (chunk : List Byte) :
    s.feed chunk = s.acceptBytes chunk := by
  induction chunk generalizing s with
  | nil => exact State.feed_nil h
  | cons d ds ih => rw [State.feed_cons, ih (s.acceptByte_bufferInv d), State.acceptBytes_cons]

/-- Settles O50: after its first byte a chunk meets INV. -/
theorem chunkInvariance : Obligations.ChunkInvariance := by
  intro s chunk h
  cases chunk with
  | nil => exact State.feed_eq_acceptBytes (h.resolve_left fun hn => hn rfl) []
  | cons d ds => rw [State.feed_cons, State.feed_eq_acceptBytes (s.acceptByte_bufferInv d), State.acceptBytes_cons]

/-! #### Streams offered byte by byte (R129, R139) -/

/-- `s` with other bytes on offer and other turns to come, which no accepted byte reads. -/
def State.withLinkTurns (s : State) (bytes : List Byte) (ts : List Turn) : State := { s with linkIn := bytes, turns := ts }

theorem State.acceptByte_withLinkTurns (s : State) (bytes : List Byte) (ts : List Turn) (d : Byte) :
    (s.withLinkTurns bytes ts).acceptByte d = (s.acceptByte d).withLinkTurns bytes ts :=
  State.acceptByte_map (f := (·.withLinkTurns bytes ts))
    (fun _ => rfl) (fun _ => rfl) (fun _ _ => rfl) (fun _ => rfl) (fun _ _ => rfl) s d

theorem State.acceptBytes_withLinkTurns (s : State) (bytes : List Byte) (ts : List Turn) (stream : List Byte) :
    (s.withLinkTurns bytes ts).acceptBytes stream = (s.acceptBytes stream).withLinkTurns bytes ts := by
  induction stream generalizing s with
  | nil => rfl
  | cons d ds ih => rw [State.acceptBytes_cons, State.acceptByte_withLinkTurns, ih, State.acceptBytes_cons]

@[simp] theorem State.acceptByte_afterReset (s : State) (d : Byte) : (s.acceptByte d).afterReset = s.afterReset := by
  obtain ⟨b, fs, n, h⟩ := s.acceptByte_frame d
  rw [h]

/-- Link turns accept the bytes on offer one after the other, as long as the port is ready before each of them. -/
theorem run_acceptBytes {s : State} {stream more : List Byte} {ts : List Turn} (ha : s.afterReset = true)
    (hl : s.linkIn = stream ++ more) (hs : s.turns = List.replicate stream.length .link ++ ts)
    (hready : ∀ p, p <+: stream → p ≠ stream → (s.acceptBytes p).outq.length < s.cfg.outDepth) :
    Host.Core.run Sys2Proof.core stream.length s = .next ((s.acceptBytes stream).withLinkTurns more ts) := by
  induction stream generalizing s with
  | nil =>
    have hsame : s.withLinkTurns more ts = s := by
      rw [State.withLinkTurns, ← show s.linkIn = more from hl, ← show s.turns = ts from hs]
    rw [State.acceptBytes_nil, hsame]
    rfl
  | cons d ds ih =>
    have hstep := step_link_ready ha (hready [] List.nil_prefix nofun) hl hs
    have hport := s.acceptByte_withLinkTurns (ds ++ more) (List.replicate ds.length .link ++ ts) d
    have ha' : (s.acceptByte d).afterReset = true := (s.acceptByte_afterReset d).trans ha
    rw [List.length_cons, run_succ_of_next _ (hstep.trans (congrArg _ hport)), ih (by exact ha') rfl rfl]
    · rw [State.acceptBytes_withLinkTurns, State.acceptBytes_cons]
      rfl
    · intro p hp hne
      have hd := hready (d :: p) (List.cons_prefix_cons.mpr ⟨rfl, hp⟩) (by simpa using hne)
      rw [State.acceptBytes_withLinkTurns]
      simpa [State.withLinkTurns] using hd

/-- A stream of which no shorter part emits a frame is drained as one chunk (R131). -/
theorem run_drains {s : State} {stream more r : List Byte} {ts : List Turn} {fs : List Frame} {n : Nat}
    (ha : s.afterReset = true) (hbuf : s.buf = []) (hready : s.outq.length < s.cfg.outDepth)
    (hl : s.linkIn = stream ++ more) (hs : s.turns = List.replicate stream.length .link ++ ts)
    (hfirst : ∀ p, p <+: stream → p ≠ stream → ∃ n r, Drains s.cfg.knownTypes p [] n r)
    (h : Drains s.cfg.knownTypes stream fs n r) :
    Host.Core.run Sys2Proof.core stream.length s = .next
      { s with buf := r, outq := s.outq ++ fs, dropCount := s.dropCount + BitVec.ofNat 32 n, linkIn := more, turns := ts } := by
  have hfeed {p fs n r} (hp : Drains s.cfg.knownTypes p fs n r) :
      s.acceptBytes p =
        { s with buf := r, outq := s.outq ++ fs, dropCount := s.dropCount + BitVec.ofNat 32 n } := by
    rw [← State.feed_eq_acceptBytes (hbuf ▸ bufferInv_nil _)]
    exact hp.decisionLoop_eq (s := { s with buf := s.buf ++ p }) rfl (by rw [hbuf, List.nil_append])
  rw [run_acceptBytes ha hl hs, hfeed h]
  · rfl
  · intro p hp hne
    obtain ⟨n, r, hd⟩ := hfirst p hp hne
    rw [hfeed hd, List.append_nil]
    exact hready

/-- Behind a stray marker, which is noise where 0xCC is no known type, an incomplete frame emits nothing. -/
theorem exists_drains_of_strayMarker {known p payload : List Byte} {ty len : Byte} (hty : ty ∈ known) (hcc : 0xCC#8 ∉ known)
    (hlen : payload.length = len.toNat) (hp : p <+: 0xCC#8 :: 0xCC#8 :: ty :: len :: payload) :
    ∃ n r, Drains known p [] n r := by
  by_cases hs : p.length < 3
  · exact ⟨0, p, .tooFew hs⟩
  · obtain _ | ⟨a, _ | ⟨b, _ | ⟨c, rest⟩⟩⟩ := p
    · exact absurd (Nat.zero_lt_succ 2) hs
    · exact absurd (Nat.lt_add_of_pos_left Nat.two_pos) hs
    · exact absurd (Nat.lt_succ_self 2) hs
    · obtain ⟨rfl, hq⟩ := List.cons_prefix_cons.mp hp
      obtain rfl : b = 0xCC#8 := (List.cons_prefix_cons.mp hq).1
      exact ⟨1, _, .noise (fun hr => hcc hr.2) (.of_bufferInv (bufferInv_of_isPrefix hty hlen hq))⟩

/-- Settles O52: short of its last byte the stream emits nothing, and with it the marker is dropped and the frame emitted. -/
theorem strayMarkerBeforeFrameIsDropped : Obligations.StrayMarkerBeforeFrameIsDropped := by
  intro s ty len rsi payload more ts ha hbuf hready hty hcc hlen hl hs
  have hframe : Drains s.cfg.knownTypes (0xCC#8 :: 0xCC#8 :: ty :: len :: (payload ++ [rsi]))
      [0xCC#8 :: ty :: len :: (payload ++ [rsi])] 1 [] := by
    have h := Drains.complete (after := []) hty (show (payload ++ [rsi]).length = len.toNat + 1 by simp [hlen])
      (.tooFew (Nat.zero_lt_succ 2))
    rw [List.append_nil] at h
    exact .noise (fun hr => hcc hr.2) h
  have hcount : 5 + len.toNat = (0xCC#8 :: 0xCC#8 :: ty :: len :: (payload ++ [rsi])).length := by
    simp only [List.length_cons, List.length_append, List.length_nil]
    omega
  rw [hcount] at hs ⊢
  have hfirst (p : List Byte) (hp : p <+: 0xCC#8 :: 0xCC#8 :: ty :: len :: (payload ++ [rsi]))
      (hne : p ≠ 0xCC#8 :: 0xCC#8 :: ty :: len :: (payload ++ [rsi])) : ∃ n r, Drains s.cfg.knownTypes p [] n r :=
    exists_drains_of_strayMarker hty hcc hlen
      ((List.prefix_concat_iff (l₂ := 0xCC#8 :: 0xCC#8 :: ty :: len :: payload).mp hp).resolve_left hne)
  rw [run_drains ha hbuf hready hl hs hfirst hframe, hbuf]

/-- A stream without a marker holds no header: all but its last two bytes are dropped. -/
theorem Drains.of_noMarker {known b : List Byte} (h : 0xCC#8 ∉ b) :
    Drains known b [] (b.length - 2) (b.drop (b.length - 2)) := by
  induction b with
  | nil => exact .tooFew (Nat.zero_lt_succ 2)
  | cons m rest ih =>
    obtain ⟨hm, hrest⟩ := not_or.mp (List.mem_cons.not.mp h)
    obtain _ | ⟨ty, _ | ⟨len, rest⟩⟩ := rest
    · exact .tooFew (Nat.lt_add_of_pos_left Nat.two_pos)
    · exact .tooFew (Nat.lt_succ_self 2)
    · exact .noise (fun hr => hm hr.1.symm) (ih hrest)

/-- Settles O53: no part of the stream holds a marker. -/
theorem streamWithoutMarkerEmitsNothing : Obligations.StreamWithoutMarkerEmitsNothing := by
  intro s stream more ts ha hbuf hready hm hl hs
  rw [run_drains ha hbuf hready hl hs (fun p hp _ => ⟨_, _, .of_noMarker fun h => hm (hp.mem h)⟩) (.of_noMarker hm),
    List.append_nil]

end Sys2Proof.Machine

/-! ### The host commands (42_host_ops.md)

The effect of each command and the words reserved beside it, the step that runs a command, and what every command but RESET
leaves of the detector's state. -/

namespace Sys2Proof.Machine

/-! #### Reserved words (R158) -/

/-- The bits of a FRAME_READ word, added up or concatenated (30_encoding.md R73). -/
theorem frameReadWord_eq (idx : BitVec 9) : 0x2000#16 ||| idx.setWidth 16 = 0x2#4 ++ 0x0#3 ++ idx := rfl

/-- The bits of a REG_READ word, added up or concatenated (30_encoding.md R73). -/
theorem regReadWord_eq (addr : BitVec 4) : 0x3000#16 ||| addr.setWidth 16 = 0x3#4 ++ 0x00#8 ++ addr := rfl

/-- A REG_READ word of an address above 5 is reserved (30_encoding.md R86). -/
theorem not_legalCommand_regRead {addr : BitVec 4} (h : 6 ≤ addr.toNat) :
    ¬legalCommand (0x3000#16 ||| addr.setWidth 16) = true := by
  have hw := toNat_regReadWord addr
  have ha := addr.isLt
  rw [regReadWord_eq]
  refine mt (legalWordsAreTheUnreservedOnes _).mp ?_
  omega

/-- Settles O34: the decoder rejects the word. -/
theorem reservedWordOnlyRaisesIllegal : Obligations.ReservedWordOnlyRaisesIllegal :=
  ⟨fun _ s h => runCommand_of_reserved (Bool.eq_false_iff.mp h) s, by decide,
    fun _ h => Bool.eq_false_iff.mpr (not_legalCommand_regRead h)⟩

/-! #### The effect of each command (R151 to R157) -/

/-- Settles O1: op 0 is legal with arg 0 only. -/
theorem nopLeavesStateUnchanged : Obligations.NopLeavesStateUnchanged := by
  refine ⟨by decide, fun _ => rfl, fun w s hlo hhi => runCommand_of_reserved (mt (legalWordsAreTheUnreservedOnes w).mp ?_) s⟩
  omega

theorem exec_framePop_nil {s : State} (h : s.outq = []) : exec .framePop s = .next (s.raiseIllegal .popEmpty) := by
  simp only [exec, execFramePop, h]

theorem exec_framePop_cons {s : State} {f : Frame} {q : List Frame} (h : s.outq = f :: q) :
    exec .framePop s = .next (({ s with outq := q } : State).respond 0#32) := by
  simp only [exec, execFramePop, h]

theorem State.getLsbD_status_zero (s : State) : s.status.getLsbD 0 = s.frameAvail := by
  rw [State.getLsbD_status]
  simp

theorem State.getLsbD_status_one (s : State) : s.status.getLsbD 1 = s.rxReady := by
  rw [State.getLsbD_status]
  simp

/-- `irq` as an emptiness test; STATUS.FRAME_AVAIL is the same function of the state (10_state.md R30, R43). -/
theorem State.irq_eq (s : State) : s.irq = !s.outq.isEmpty := by
  unfold State.irq
  cases s.outq with
  | nil => rfl
  | cons f q => simp

/-- Settles O2: the two branches of the pop, and the flags of a queue that is one frame shorter. -/
theorem framePopRemovesHead : Obligations.FramePopRemovesHead := by
  refine ⟨by decide, fun _ _ _ => exec_framePop_cons, fun _ => exec_framePop_nil, fun s t f q hq hle h => ?_⟩
  rw [exec_framePop_cons hq] at h
  cases h
  rw [hq, List.length_cons] at hle
  rw [State.getLsbD_status_one, State.getLsbD_status_zero]
  exact ⟨decide_eq_true hle, State.irq_eq _, State.irq_eq _⟩

theorem decodeCmd_frameRead (idx : BitVec 9) : decodeCmd (0x2000#16 ||| idx.setWidth 16) = .instr (.frameRead idx) :=
  frameReadWord_eq idx ▸ decodeCmd_frameReadWord idx

/-- A frame that 10_state.md R26 describes has at most 259 bytes. -/
theorem Frame.WellFormed.length_le {known : List Byte} {f : Frame} (h : Frame.WellFormed known f) : List.length f ≤ 259 := by
  obtain ⟨-, -, hl⟩ := h
  rw [hl]
  exact (frameSize_bounds _).2

/-- Settles O3: FRAME_READ shows the byte that FRAME_VIEW has, and the laid out frame's bytes by the address table. -/
theorem frameReadAnswersHeadByte : Obligations.FrameReadAnswersHeadByte := by
  refine ⟨decodeCmd_frameRead, fun s f q idx hi hq => ?_, fun s f q idx hq => exec_frameRead_past hq,
    fun s idx hq => exec_frameRead_none (State.readFrameView_nil hq idx),
    fun s f q idx hq hw hi => exec_frameRead_past hq (hw.length_le.trans hi), fun s ty len rsi payload q hp hq => ?_⟩
  · exact exec_frameRead_some (by rw [State.readFrameView_cons hq, List.getElem?_eq_getElem hi])
  · obtain ⟨hmarker, -, hlength, -, hrsi, hpast⟩ := frameViewIsWireOrder s ty len rsi payload q hp hq
    exact ⟨hmarker, hlength, hrsi, hpast⟩

/-- Settles O5: the six registers one by one, and the addresses that hold none. -/
theorem regReadAnswersRegister : Obligations.RegReadAnswersRegister := by
  refine ⟨fun addr ha => ?_, fun addr s ha => runCommand_of_reserved (not_legalCommand_regRead ha) s, fun s => ?_,
    fun s h => (State.getLsbD_status_five s).trans h, exec_regRead_some (by decide)⟩
  · rw [regReadWord_eq]
    exact decodeCmd_regReadWord ha
  · exact ⟨exec_regRead_some rfl, exec_regRead_some rfl, exec_regRead_some rfl, exec_regRead_some rfl,
      exec_regRead_some rfl, exec_regRead_some rfl⟩

/-- Settles O9: the command's effect and bit 5 after it; op 6 is legal with arg 0 only. -/
theorem clrErrClearsIllegal : Obligations.ClrErrClearsIllegal := by
  refine ⟨by decide, fun _ => rfl, fun s t h => ?_,
    fun w s hlo hhi => runCommand_of_reserved (mt (legalWordsAreTheUnreservedOnes w).mp ?_) s⟩
  · cases h
    exact State.getLsbD_status_five _
  · omega

/-- After a reset event only RX_READY is set, OUT_DEPTH being at least 1 (10_state.md R40). -/
theorem State.status_resetEvent {s : State} (h : s.cfg.Legal) : s.resetEvent.status = 0x00000002#32 := by
  have hready : s.resetEvent.rxReady = true := decide_eq_true h
  have hframe : s.resetEvent.frameAvail = false := rfl
  have hmode : s.resetEvent.draining = false := rfl
  have hcks : s.resetEvent.cksOk = false := rfl
  rw [State.status, hready, hframe, hmode, hcks, State.resetEvent_cksAny, State.resetEvent_illegal]
  decide

/-- Settles O10: the reset event, which empties the queue of a port with room for a frame. -/
theorem resetCommandClearsBlock : Obligations.ResetCommandClearsBlock := by
  refine ⟨decodeCmd_eq_reset_iff.mpr rfl, fun s => ⟨true, rfl⟩, fun s t hlegal h => ?_⟩
  cases h
  exact ⟨State.status_resetEvent hlegal, rfl, rfl⟩

/-! #### The step (R150) -/

/-- After the first reset a host turn with a reserved word on offer only raises Illegal. -/
theorem step_host_of_reserved {s : State} {w : Cmd} {ws : List Cmd} {ts : List Turn} (ha : s.afterReset = true)
    (hs : s.turns = .host :: ts) (hw : s.hostIn = w :: ws) (h : ¬legalCommand w = true) :
    step s = .next { s with turns := ts, hostIn := ws, illegal := true, rsp := 0#32 } := by
  simp only [step, hs, hostTurn, hw, ha, Bool.true_or, if_true, runCommand_of_reserved h]

/-- Settles O38: a legal word and a reserved one. -/
theorem stepRunsDecodedCommand : Obligations.StepRunsDecodedCommand := by
  refine fun s w ws ts ha hs hw => ⟨fun i hd => step_host_of_decodes ha hs hw hd, fun r hd => ?_⟩
  exact step_host_of_reserved ha hs hw (by simp [legalCommand, hd])

/-! #### What the commands leave of the detector (R159) -/

/-- The registers show the length of the buffer and the mode, and none of its bytes (10_state.md R41). -/
theorem State.readReg_of_buf {s : State} {b : List Byte} (hl : b.length = s.buf.length)
    (hm : modeOf s.cfg.knownTypes b = s.mode) (addr : BitVec 4) :
    ({ s with buf := b } : State).readReg addr = s.readReg addr := by
  have hstatus : ({ s with buf := b } : State).status = s.status := by
    simp only [State.status, State.draining, ← hm]
    rfl
  have hlen : ({ s with buf := b } : State).bufLen = s.bufLen := congrArg (BitVec.ofNat 32) hl
  simp only [State.readReg, hstatus, hlen]
  rfl

/-- A host command other than RESET changes the head of the queue and the host's side only, and does the same whatever bytes
the buffer holds at its length and mode. -/
theorem exec_hostCommand_of_buf {i : Instr} (hi : isHostCommandButReset i = true) (s : State) :
    ∃ q acc any ill v, (q = s.outq ∨ i = .framePop ∧ q = s.outq.drop 1) ∧
      ∀ b : List Byte, b.length = s.buf.length → modeOf s.cfg.knownTypes b = s.mode →
        exec i { s with buf := b } = .next (({ s with buf := b, outq := q } : State).withHostSide acc any ill v) := by
  cases i with
  | nop => exact ⟨s.outq, s.cksAcc, s.cksAny, s.illegal, 0#32, .inl rfl, fun _ _ _ => rfl⟩
  | framePop =>
    by_cases hq : s.outq = []
    · exact ⟨s.outq, s.cksAcc, s.cksAny, true, 0#32, .inl rfl, fun b _ _ => exec_framePop_nil (s := { s with buf := b }) hq⟩
    · obtain ⟨f, q, hq⟩ := List.exists_cons_of_ne_nil hq
      exact ⟨q, s.cksAcc, s.cksAny, s.illegal, 0#32, .inr ⟨rfl, by rw [hq]; rfl⟩,
        fun b _ _ => exec_framePop_cons (s := { s with buf := b }) hq⟩
  | frameRead idx =>
    cases hv : s.readFrameView idx with
    | none =>
      exact ⟨s.outq, s.cksAcc, s.cksAny, true, 0#32, .inl rfl,
        fun b _ _ => exec_frameRead_none (s := { s with buf := b }) hv⟩
    | some v =>
      exact ⟨s.outq, s.cksAcc, s.cksAny, s.illegal, v.setWidth 32, .inl rfl,
        fun b _ _ => exec_frameRead_some (s := { s with buf := b }) hv⟩
  | regRead addr =>
    cases hv : s.readReg addr with
    | none =>
      exact ⟨s.outq, s.cksAcc, s.cksAny, true, 0#32, .inl rfl,
        fun b hl hm => exec_regRead_none ((State.readReg_of_buf hl hm addr).trans hv)⟩
    | some v =>
      exact ⟨s.outq, s.cksAcc, s.cksAny, s.illegal, v, .inl rfl,
        fun b hl hm => exec_regRead_some ((State.readReg_of_buf hl hm addr).trans hv)⟩
  | cksClear => exact ⟨s.outq, 0x00#8, false, s.illegal, 0#32, .inl rfl, fun _ _ _ => rfl⟩
  | cksByte d => exact ⟨s.outq, s.cksAcc ^^^ d, true, s.illegal, 0#32, .inl rfl, fun _ _ _ => rfl⟩
  | clrErr => exact ⟨s.outq, s.cksAcc, s.cksAny, false, 0#32, .inl rfl, fun _ _ _ => rfl⟩
  | reset | rxByte d | hdrLog len | hdrPingResp134 len | hdrPingResp136 len | hdrKnown ty len | hdrNoise hdr => cases hi

/-- Settles O58: no command changes more than the head of the queue and the host's side. -/
theorem hostCommandsLeaveDetectorState : Obligations.HostCommandsLeaveDetectorState := by
  intro i s t hi h
  obtain ⟨q, acc, any, ill, v, hq, hx⟩ := exec_hostCommand_of_buf hi s
  cases h.symm.trans (hx s.buf rfl rfl)
  exact ⟨rfl, rfl, hq, rfl, rfl, rfl, rfl⟩

/-- Settles O59: the command's effect is the same under both buffers. -/
theorem hostCommandsNeverReadBufferBytes : Obligations.HostCommandsNeverReadBufferBytes := by
  intro i s t b hi hl hm h
  obtain ⟨q, acc, any, ill, v, -, hx⟩ := exec_hostCommand_of_buf hi s
  cases h.symm.trans (hx s.buf rfl rfl)
  exact hx b hl hm

end Sys2Proof.Machine

/-! ### Exceptions (60_exceptions.md)

The causes of ILLEGAL and nothing else, what a step can do to the queue and so to `irq`, and that every step completes. -/

namespace Sys2Proof.Machine

/-! #### The causes of ILLEGAL (R182) -/

/-- FRAME_VIEW has no byte at `idx` exactly where `idx` is past every head frame there is, an empty queue included. -/
theorem State.readFrameView_eq_none_iff {s : State} {idx : BitVec 9} :
    s.readFrameView idx = none ↔ ∀ f q, s.outq = f :: q → List.length f ≤ idx.toNat := by
  cases hq : s.outq with
  | nil => exact iff_of_true (State.readFrameView_nil hq idx) nofun
  | cons f q =>
    rw [State.readFrameView_cons hq, List.getElem?_eq_none_iff]
    exact ⟨fun h _ _ he => (List.cons.inj he).1 ▸ h, fun h => h f q rfl⟩

/-- A word that decodes to FRAME_READ is written by its row: opcode 2 and the index (30_encoding.md R73). -/
theorem eq_frameReadWord_of_decodeCmd {w : Cmd} {idx : BitVec 9} (h : decodeCmd w = .instr (.frameRead idx)) :
    w = 0x2000#16 ||| idx.setWidth 16 := by
  obtain ⟨-, hw⟩ := encode_of_decodeCmd [] h
  cases hw
  exact (frameReadWord_eq idx).symm

/-- The word has one of R182's three causes in this state: it is reserved, a pop of an empty queue, or a frame read out of
range. -/
def State.HasIllegalCause (s : State) (w : Cmd) : Prop :=
  legalCommand w = false ∨ (w = 0x1000#16 ∧ s.outq = []) ∨
    ∃ idx : BitVec 9, w = 0x2000#16 ||| idx.setWidth 16 ∧ ∀ f q, s.outq = f :: q → List.length f ≤ idx.toNat

/-- A command with a cause sets the bit and answers 0, and does nothing else. -/
theorem runCommand_of_hasIllegalCause {s : State} {w : Cmd} (h : s.HasIllegalCause w) :
    runCommand w s = .next { s with illegal := true, rsp := 0#32 } := by
  obtain hw | ⟨rfl, hq⟩ | ⟨idx, rfl, hpast⟩ := h
  · exact runCommand_of_reserved (Bool.eq_false_iff.mp hw) s
  · rw [runCommand_of_decodes (i := .framePop) (by decide)]
    exact exec_framePop_nil hq
  · rw [runCommand_of_decodes (decodeCmd_frameRead idx)]
    exact exec_frameRead_none (State.readFrameView_eq_none_iff.mpr hpast)

/-- A command without a cause leaves ILLEGAL as it finds it, or clears it. -/
theorem illegal_of_runCommand {s t : State} {w : Cmd} (hno : ¬s.HasIllegalCause w) (h : runCommand w s = .next t)
    (ht : t.illegal = true) : s.illegal = true := by
  obtain ⟨i, hd⟩ := legalCommand_iff.mp (eq_true_of_ne_false fun hw => hno (.inl hw))
  rw [runCommand_of_decodes hd] at h
  obtain ⟨-, rfl⟩ | ⟨-, rfl⟩ | ⟨rfl, rfl⟩ | rfl | ⟨rfl, -⟩ | ⟨a, rfl, ha⟩ | rfl | ⟨d, rfl⟩ := decodeCmd_cases hd
  · cases h
    cases ht
  · cases h
    cases ht
  · obtain ⟨f, q, hq⟩ := List.exists_cons_of_ne_nil fun hq => hno (.inr (.inl ⟨rfl, hq⟩))
    rw [exec_framePop_cons hq] at h
    cases h
    exact ht
  · cases h
    exact ht
  · have hin : s.readFrameView (Cmd.idx w) ≠ none := fun hv =>
      hno (.inr (.inr ⟨_, eq_frameReadWord_of_decodeCmd hd, State.readFrameView_eq_none_iff.mp hv⟩))
    obtain ⟨b, hb⟩ := Option.ne_none_iff_exists'.mp hin
    rw [exec_frameRead_some hb] at h
    cases h
    exact ht
  · obtain ⟨v, hv⟩ := Option.isSome_iff_exists.mp ((s.readReg_isSome_iff a).mpr ha)
    rw [exec_regRead_some hv] at h
    cases h
    exact ht
  · cases h
    exact ht
  · cases h
    exact ht

/-- Settles O15: RX_BYTE by its frame, a command by whether it has a cause. -/
theorem illegalOnlyForNamedCauses : Obligations.IllegalOnlyForNamedCauses := by
  refine ⟨fun d s t h => ?_, fun w s => ⟨runCommand_of_hasIllegalCause, fun hno t => illegal_of_runCommand hno⟩⟩
  obtain ⟨_, _, _, _, rfl⟩ := exec_rxByte_frame h
  rfl

/-! #### The queue and `irq` (R185) -/

/-- A host command leaves the queue, empties it (RESET), or takes its head (FRAME_POP). -/
theorem runCommand_outq {s t : State} {w : Cmd} (h : runCommand w s = .next t) :
    t.outq = s.outq ∨ (w = 0x7000#16 ∧ t.outq = []) ∨ (w = 0x1000#16 ∧ ∃ f, s.outq = f :: t.outq) := by
  obtain rfl | ⟨-, rfl⟩ | ⟨rfl, rfl⟩ | ⟨rfl, f, q, hq, rfl⟩ | ⟨v, rfl⟩ | ⟨a, b, -, rfl⟩ := runCommand_cases h
  · exact .inl rfl
  · exact .inl rfl
  · exact .inr (.inl ⟨rfl, rfl⟩)
  · exact .inr (.inr ⟨rfl, f, hq⟩)
  · exact .inl rfl
  · exact .inl rfl

/-- A step leaves the queue, appends frames at an RX_BYTE, empties it at a reset event, or takes its head at a FRAME_POP. -/
theorem step_outq {s t : State} (h : step s = .next t) :
    t.outq = s.outq ∨
    (∃ ts d ds, s.turns = .link :: ts ∧ s.linkIn = d :: ds ∧ ∃ fs, t.outq = s.outq ++ fs) ∨
    ((∃ ts, s.turns = .rst :: ts) ∧ t.outq = []) ∨
    ((∃ ts ws, s.turns = .host :: ts ∧ s.hostIn = 0x7000#16 :: ws) ∧ t.outq = []) ∨
    (∃ ts ws, s.turns = .host :: ts ∧ s.hostIn = 0x1000#16 :: ws ∧ ∃ f, s.outq = f :: t.outq) := by
  obtain ⟨-, rfl⟩ | ⟨ts, hs, hx⟩ | ⟨ts, hs, hx⟩ | ⟨ts, hs, rfl⟩ := step_cases h
  · exact .inl rfl
  · obtain ⟨-, rfl⟩ | ⟨d, ds, hl, -, hd⟩ := linkTurn_cases hx
    · exact .inl rfl
    · obtain ⟨_, fs, _, _, rfl⟩ := exec_rxByte_frame hd
      exact .inr (.inl ⟨ts, d, ds, hs, hl, fs, rfl⟩)
  · obtain ⟨-, rfl⟩ | ⟨w, ws, hw, -, hc⟩ := hostTurn_cases hx
    · exact .inl rfl
    · obtain he | ⟨rfl, he⟩ | ⟨rfl, f, hf⟩ := runCommand_outq hc
      · exact .inl he
      · exact .inr (.inr (.inr (.inl ⟨⟨ts, ws, hs, hw⟩, he⟩)))
      · exact .inr (.inr (.inr (.inr ⟨ts, ws, hs, hw, f, hf⟩)))
  · exact .inr (.inr (.inl ⟨⟨ts, hs⟩, rfl⟩))

theorem State.irq_eq_true_iff {s : State} : s.irq = true ↔ s.outq ≠ [] := by simp [State.irq_eq]

theorem State.irq_eq_false_iff {s : State} : s.irq = false ↔ s.outq = [] := by simp [State.irq_eq]

/-- Settles O16: of what a step can do to the queue, only RX_BYTE makes an empty one non-empty, and only a reset event or the
pop of the last frame empties one. -/
theorem irqIsFrameAvailable : Obligations.IrqIsFrameAvailable := by
  refine ⟨fun s => ⟨s.getLsbD_status_zero.symm, State.irq_eq_true_iff⟩, fun s t h hs ht => ?_, fun s t h hs ht => ?_⟩
  · rw [State.irq_eq_false_iff] at hs
    rw [State.irq_eq_true_iff] at ht
    obtain he | ⟨ts, d, ds, hturn, hl, -⟩ | ⟨-, he⟩ | ⟨-, he⟩ | ⟨_, _, -, -, f, hf⟩ := step_outq h
    · exact absurd (he.trans hs) ht
    · exact ⟨ts, d, ds, hturn, hl, hs, ht⟩
    · exact absurd he ht
    · exact absurd he ht
    · exact absurd (hs.symm.trans hf) (List.cons_ne_nil f _).symm
  · rw [State.irq_eq_true_iff] at hs
    rw [State.irq_eq_false_iff] at ht
    obtain he | ⟨_, _, _, -, -, fs, he⟩ | ⟨hr, -⟩ | ⟨hr, -⟩ | ⟨ts, ws, hturn, hw, f, hf⟩ := step_outq h
    · exact absurd (he.symm.trans ht) hs
    · exact absurd (List.append_eq_nil_iff.mp (he.symm.trans ht)).1 hs
    · exact .inl hr
    · exact .inr (.inl hr)
    · exact .inr (.inr ⟨ts, ws, f, hturn, hw, ht ▸ hf, ht⟩)

/-! #### Idle turns (R193) -/

theorem step_of_no_turn {s : State} (hs : s.turns = []) : step s = .next s := by
  simp only [step, hs]

/-- With no word on offer a host turn only passes. -/
theorem step_host_nil {s : State} {ts : List Turn} (hs : s.turns = .host :: ts) (hw : s.hostIn = []) :
    step s = .next { s with turns := ts } := by
  simp only [step, hs, hostTurn, hw]

/-- Settles O41. -/
theorem idleStepHoldsState : Obligations.IdleStepHoldsState :=
  ⟨fun _ => step_of_no_turn, fun _ _ => step_link_nil, fun _ _ => step_host_nil⟩

/-! #### Every step completes (R180, R184, R135) -/

/-- No byte is an error: RX_BYTE has a next state, ready or not. -/
theorem exists_exec_rxByte (d : Byte) (s : State) : ∃ t, exec (.rxByte d) s = .next t := by
  by_cases hr : s.outq.length < s.cfg.outDepth
  · exact ⟨_, exec_rxByte_ready d hr⟩
  · exact ⟨_, exec_rxByte_stalled d (Nat.le_of_not_lt hr)⟩

/-- No word is an error: every command has a next state, reserved words included. -/
theorem exists_runCommand (w : Cmd) (s : State) : ∃ t, runCommand w s = .next t := by
  obtain ⟨t, ht, -⟩ := otherCommandsAnswerZero w s
  exact ⟨t, ht⟩

/-- After the first reset a host turn with a word on offer is that word's command, legal or reserved (42_host_ops.md R150). -/
theorem step_host_cons {s : State} {w : Cmd} {ws : List Cmd} {ts : List Turn} (ha : s.afterReset = true)
    (hs : s.turns = .host :: ts) (hw : s.hostIn = w :: ws) :
    step s = runCommand w { s with turns := ts, hostIn := ws } := by
  simp only [step, hs, hostTurn, hw, ha, Bool.true_or, if_true]

theorem exists_step {s : State} (ha : s.afterReset = true) : ∃ t, step s = .next t := by
  rcases hs : s.turns with _ | ⟨turn, ts⟩
  · exact ⟨s, step_of_no_turn hs⟩
  cases turn with
  | link =>
    cases hl : s.linkIn with
    | nil => exact ⟨_, step_link_nil hs hl⟩
    | cons d ds =>
      rw [stepRunsOfferedByte s d ds ts ha hs hl]
      exact exists_exec_rxByte d _
  | host =>
    cases hw : s.hostIn with
    | nil => exact ⟨_, step_host_nil hs hw⟩
    | cons w ws =>
      rw [step_host_cons ha hs hw]
      exact exists_runCommand w _
  | rst => exact ⟨({ s with turns := ts } : State).resetEvent, by simp only [step, hs, rstTurn]⟩

theorem runCommand_afterReset {s t : State} {w : Cmd} (h : runCommand w s = .next t) (ha : s.afterReset = true) :
    t.afterReset = true := by
  obtain rfl | ⟨-, rfl⟩ | ⟨-, rfl⟩ | ⟨-, _, _, -, rfl⟩ | ⟨_, rfl⟩ | ⟨_, _, -, rfl⟩ := runCommand_cases h
  · exact ha
  · exact ha
  · rfl
  · exact ha
  · exact ha
  · exact ha

/-- No step takes the block back before its first reset. -/
theorem step_afterReset {s t : State} (h : step s = .next t) (ha : s.afterReset = true) : t.afterReset = true := by
  obtain ⟨-, rfl⟩ | ⟨ts, -, hx⟩ | ⟨ts, -, hx⟩ | ⟨ts, -, rfl⟩ := step_cases h
  · exact ha
  · obtain ⟨_, _, _, _, rfl⟩ := linkTurn_frame hx
    exact ha
  · obtain ⟨-, rfl⟩ | ⟨w, ws, -, -, hc⟩ := hostTurn_cases hx
    · exact ha
    · exact runCommand_afterReset hc ha
  · rfl

/-- Settles O43: every turn has a next state, and none undoes the first reset. -/
theorem everyStepAfterResetCompletes : Obligations.EveryStepAfterResetCompletes := by
  intro s ha
  obtain ⟨t, ht⟩ := exists_step ha
  exact ⟨t, ht, step_afterReset ht ha⟩

end Sys2Proof.Machine

/-! ### Reset and hazards (70_reset_and_hazards.md)

Link turns at a full queue, the reset event by the pulse and by the RESET word, and the refusals before the first one. -/

namespace Sys2Proof.Machine

/-! #### A full queue (R210) -/

/-- Settles O24, by induction on the number of link turns: one of them only passes (20_memory.md R56), which leaves the queue
full for the next. -/
theorem fullQueueHoldsLinkForever : Obligations.FullQueueHoldsLinkForever := by
  intro k s ts ha hfull hs
  obtain ⟨-, hstall⟩ := rxByteStallsWhileQueueFull
  induction k generalizing s with
  | zero =>
    obtain rfl : s.turns = ts := hs
    rfl
  | succ k ih =>
    rw [run_succ_of_next k (hstall s (List.replicate k Turn.link ++ ts) ha hfull hs)]
    exact ih { s with turns := List.replicate k .link ++ ts } ha hfull rfl

/-! #### The reset event (R200) -/

/-- A pulse of `rst` is the reset event, before the first reset too. -/
theorem step_rst {s : State} {ts : List Turn} (hs : s.turns = .rst :: ts) :
    step s = .next ({ s with turns := ts } : State).resetEvent := by
  simp only [step, hs, rstTurn]

/-- A host turn that offers the RESET word runs RESET, before the first reset too. -/
theorem step_resetWord {s : State} {ts : List Turn} {ws : List Cmd} (hs : s.turns = .host :: ts)
    (hw : s.hostIn = 0x7000#16 :: ws) : step s = exec .reset { s with turns := ts, hostIn := ws } := by
  simp only [step, hs]
  exact hostTurn_resetWord (s := { s with turns := ts }) hw

/-- Settles O40: the pulse and the RESET command are the same event. -/
theorem resetPulseClearsBlock : Obligations.ResetPulseClearsBlock := by
  intro s ts hs
  refine ⟨({ s with turns := ts } : State).resetEvent, _, _, _, step_rst hs, rfl, rfl, rfl, fun hlegal => ?_⟩
  have hready : ({ s with turns := ts } : State).resetEvent.rxReady = true := decide_eq_true hlegal
  exact ⟨rfl, State.status_resetEvent hlegal, hready, rfl⟩

/-! #### Before the first reset (R201) -/

/-- Before the first reset a byte on offer is refused. -/
theorem step_link_beforeFirstReset {s : State} {d : Byte} {ds : List Byte} {ts : List Turn} (ha : s.afterReset = false)
    (hs : s.turns = .link :: ts) (hl : s.linkIn = d :: ds) : step s = .refused .beforeFirstReset := by
  simp only [step, hs, linkTurn, hl, ha, Bool.false_eq_true, if_false]

/-- Before the first reset a word on offer is refused, RESET excepted. -/
theorem step_host_beforeFirstReset {s : State} {w : Cmd} {ws : List Cmd} {ts : List Turn} (ha : s.afterReset = false)
    (hs : s.turns = .host :: ts) (hw : s.hostIn = w :: ws) (hreset : w ≠ 0x7000#16) :
    step s = .refused .beforeFirstReset := by
  have hd : ¬decodeCmd w = .instr .reset := mt decodeCmd_eq_reset_iff.mp hreset
  simp only [step, hs, hostTurn, hw, ha, Bool.false_or, beq_iff_eq, if_neg hd]

/-- Settles O42: a byte, a word other than RESET, a pulse of `rst`, and the RESET word. -/
theorem transactionsBeforeFirstResetRefused : Obligations.TransactionsBeforeFirstResetRefused := by
  intro s ha
  refine ⟨fun ts d ds => step_link_beforeFirstReset ha, fun ts w ws => step_host_beforeFirstReset ha,
    fun ts hs => ⟨_, step_rst hs⟩, fun ts ws hs hw => ?_⟩
  have hstep := step_resetWord hs hw
  exact ⟨hstep, hstep⟩

end Sys2Proof.Machine
